-- ==== Sys2Proof/Word.lean ====
section
/-! DEFINITION. The words of the HA_JPG CORE engine and the shape of a block
(`00_scope.md` R3, R4; `10_state.md` R10, R11, R13, R14; `20_memory.md` R30). -/

namespace Sys2Proof

/-- A 32-bit word: an F element, a register, the data of a host transfer (R3: `FW`, `DW`). -/
abbrev Word := BitVec 32

/-- An 8-bit pattern: a Q element (R3: `QEW`). -/
abbrev Byte := BitVec 8

/-- A 16-bit unsigned divisor: an entry of `QT` (R3: `QW`). -/
abbrev Divisor := BitVec 16

/-- A word address of the host port (R3: `AW` = 10, 1024 words). -/
abbrev WordAddr := BitVec 10

/-- The index of a buffer inside its file: `F[0]`, `F[1]`, `Q[0]`, `Q[1]` (R3: `NF` = `NQ` = 2). -/
abbrev BufIdx := Fin 2

/-- The linear index of an element of a block (R4; R3: `NE` = 64). -/
abbrev Elem := Fin 64

/-- A block: 64 elements in linear order (R4). -/
abbrev Block (α : Type) := Vector α 64

/-- A block of binary32 patterns (R10). -/
abbrev FBlock := Block Word

/-- A block of signed bytes (R11). -/
abbrev QBlock := Block Byte

/-- The quantization table's contents (R13). -/
abbrev QTable := Block Divisor

/-- The zigzag ROM's contents, each entry an integer 0 to 63 (R14). -/
abbrev ZTable := Block Elem

/-- The linear index `8*a + b` of the element at position `(a, b)` (R4). -/
def blockIdx (a b : Fin 8) : Elem := ⟨8 * a.val + b.val, by omega⟩

/-- The first index of a linear index, `a = i div 8` (R4). -/
def rowOf (i : Elem) : Fin 8 := ⟨i.val / 8, by omega⟩

/-- The second index of a linear index, `b = i mod 8` (R4). -/
def colOf (i : Elem) : Fin 8 := ⟨i.val % 8, by omega⟩

end Sys2Proof
end

