-- ==== Sys2Proof/Syntax.lean ====
section
/-! DEFINITION. The syntax of the engine: the six commands, the fields of a command word, what the host
port can carry, and the host programs of the assembler (`30_encoding.md` R50 to R57; `20_memory.md` R30). -/

namespace Sys2Proof

/-- The command set: one constructor per row of `spec/opcode_table.json`, destination first, as in the
assembler (R52, R55). Which buffer file an index selects is fixed by the command (R51). -/
inductive Instr where
  /-- `FDCT Fd, Fs` (R62). -/
  | fdct (dst src : BufIdx)
  /-- `IDCT Fd, Fs` (R65). -/
  | idct (dst src : BufIdx)
  /-- `QUANT Qd, Fs` (R71). -/
  | quant (dst src : BufIdx)
  /-- `DEQUANT Fd, Qs` (R75). -/
  | dequant (dst src : BufIdx)
  /-- `ZZF Qd, Qs` (R83). -/
  | zzf (dst src : BufIdx)
  /-- `ZZI Qd, Qs` (R84). -/
  | zzi (dst src : BufIdx)
  deriving DecidableEq, Repr

/-- The operand field `SRC` of a command. -/
def Instr.src : Instr → BufIdx
  | .fdct _ s => s
  | .idct _ s => s
  | .quant _ s => s
  | .dequant _ s => s
  | .zzf _ s => s
  | .zzi _ s => s

/-- The operand field `DST` of a command. -/
def Instr.dst : Instr → BufIdx
  | .fdct d _ => d
  | .idct d _ => d
  | .quant d _ => d
  | .dequant d _ => d
  | .zzf d _ => d
  | .zzi d _ => d

/-- The five fields of the one format `C` (R50). -/
structure CommandFields where
  /-- Bits 3:0. -/
  op : BitVec 4
  /-- Bit 4. -/
  src : BitVec 1
  /-- Bits 7:5, reserved. -/
  rz1 : BitVec 3
  /-- Bit 8. -/
  dst : BitVec 1
  /-- Bits 31:9, reserved. -/
  rz2 : BitVec 23
  deriving DecidableEq, Repr

/-- What the world outside the engine does next at its port (R30): a read or a write of one word, the
polling loop `WAIT` (R57, R96), or an assertion of `rst_n` (R120). -/
inductive HostEvent where
  /-- `HostRead(a)` (R41). -/
  | read (a : WordAddr)
  /-- `HostWrite(a, w)` (R42). -/
  | write (a : WordAddr) (w : Word)
  /-- `WAIT`: repeat `HostRead(0x001)` until bit 0 is 0 (R57). -/
  | wait
  /-- `rst_n` is asserted and released: a hard reset (R120). -/
  | hardReset
  deriving DecidableEq, Repr

/-- What a word address of the host window names (R32). -/
inductive Location where
  | cmd
  | status
  | ctrl
  | qt (i : Elem)
  | zz (i : Elem)
  | f (n : BufIdx) (i : Elem)
  | q (n : BufIdx) (k : Fin 16)
  | reserved
  deriving DecidableEq, Repr

/-- A buffer name of the assembler: `F0`, `F1`, `Q0`, `Q1` (R55). -/
inductive BufName where
  | f (n : BufIdx)
  | q (n : BufIdx)
  deriving DecidableEq, Repr

/-- A mnemonic of the opcode map (R52). -/
inductive Mnemonic where
  | fdct
  | idct
  | quant
  | dequant
  | zzf
  | zzi
  deriving DecidableEq, Repr

/-- A command line as written: a mnemonic, the destination, the source (R55). -/
structure AsmCommand where
  mnemonic : Mnemonic
  dst : BufName
  src : BufName
  deriving DecidableEq, Repr

/-- One line of a host program: a command, a pseudo-command (R56) or a host directive (R57). -/
inductive HostLine where
  | command (c : AsmCommand)
  | encblk
  | decblk
  | wr (a : WordAddr) (w : Word)
  | rd (a : WordAddr)
  | wait
  | srst
  | clrsat
  | ldqt (v : Block Word)
  | ldf (n : BufIdx) (x : FBlock)
  | ldq (n : BufIdx) (b : QBlock)
  deriving DecidableEq, Repr

end Sys2Proof
end

