-- ==== Sys2Proof/WellFormed.lean ====
section
/-! DEFINITION. Well-formedness: of the fields of a command word (`30_encoding.md` R52, R53), of a command
line of the assembler (R51, R55), and of a command. -/

namespace Sys2Proof

/-- The fields of a legal command word: `OP` in 1 to 6 and both reserved fields 0 (R53). -/
def CommandFields.wf (c : CommandFields) : Bool :=
  decide (1 ≤ c.op.toNat) && decide (c.op.toNat ≤ 6) && c.rz1 == 0 && c.rz2 == 0

/-- A buffer name is an F buffer. -/
def BufName.isF : BufName → Bool
  | .f _ => true
  | .q _ => false

/-- A command line's operands are of the files its command takes (the table of R51); any other line is a
syntax error (R55). -/
def AsmCommand.wf (c : AsmCommand) : Bool :=
  match c.mnemonic with
  | .fdct => c.dst.isF && c.src.isF
  | .idct => c.dst.isF && c.src.isF
  | .quant => !c.dst.isF && c.src.isF
  | .dequant => c.dst.isF && !c.src.isF
  | .zzf => !c.dst.isF && !c.src.isF
  | .zzi => !c.dst.isF && !c.src.isF

/-- Every term of `Instr` is a legal command: its two indices are in 0..1 by type, and `SRC = DST` is
legal for every command (R51). -/
def Instr.wf : Instr → Bool
  | .fdct _ _ => true
  | .idct _ _ => true
  | .quant _ _ => true
  | .dequant _ _ => true
  | .zzf _ _ => true
  | .zzi _ _ => true

end Sys2Proof
end

