-- ==== Sys2Proof/Decode.lean ====
section
/-! DEFINITION. Decoding and encoding of command words (`30_encoding.md` R50 to R53). -/

namespace Sys2Proof

/-- Why a word is illegal: the four cases of R53, in its order. -/
inductive DecodeError where
  /-- `OP = 0x0`. -/
  | opZero
  /-- `OP` in `0x7` to `0xF`. -/
  | opUnused
  /-- `RZ1` (bits 7:5) is not 0. -/
  | rz1NotZero
  /-- `RZ2` (bits 31:9) is not 0. -/
  | rz2NotZero
  deriving DecidableEq, Repr

/-- The fields of a word (R50). -/
def CommandFields.ofWord (w : Word) : CommandFields where
  op := w.extractLsb' 0 4
  src := w.extractLsb' 4 1
  rz1 := w.extractLsb' 5 3
  dst := w.extractLsb' 8 1
  rz2 := w.extractLsb' 9 23

/-- The word of five fields: `RZ2`, `DST`, `RZ1`, `SRC`, `OP` from the top (R50). -/
def CommandFields.toWord (c : CommandFields) : Word := c.rz2 ++ c.dst ++ c.rz1 ++ c.src ++ c.op

/-- A one-bit operand field as a buffer index, used as it stands (R51). -/
def bufIdxOfField (b : BitVec 1) : BufIdx := b.toFin

/-- Decode a command word: total, rejecting each illegal word by the reason of R53. -/
def decode (w : Word) : Except DecodeError Instr :=
  let c := CommandFields.ofWord w
  let d := bufIdxOfField c.dst
  let s := bufIdxOfField c.src
  if c.rz2 ≠ 0 then .error .rz2NotZero
  else if c.rz1 ≠ 0 then .error .rz1NotZero
  else
    match c.op.toNat with
    | 0 => .error .opZero
    | 1 => .ok (.fdct d s)
    | 2 => .ok (.idct d s)
    | 3 => .ok (.quant d s)
    | 4 => .ok (.dequant d s)
    | 5 => .ok (.zzf d s)
    | 6 => .ok (.zzi d s)
    | _ => .error .opUnused

/-- The operation code of a command (R52). -/
def Instr.opcode : Instr → Nat
  | .fdct _ _ => 1
  | .idct _ _ => 2
  | .quant _ _ => 3
  | .dequant _ _ => 4
  | .zzf _ _ => 5
  | .zzi _ _ => 6

/-- Encode a command: `OP + 16*SRC + 256*DST` (R50). -/
def encode (i : Instr) : Word := BitVec.ofNat 32 (i.opcode + 16 * i.src.val + 256 * i.dst.val)

/-- The instruction the decoder reads from the word `w` of an opcode-table row of `nbits` bits; bits above
`nbits` count as 0. A command is one 32-bit word with no byte order (R37, R50), so the table's numbering
is the word's own. -/
def decodeTableWord (nbits w : Nat) : Option Instr :=
  if w % 2 ^ nbits < 2 ^ 32 then (decode (BitVec.ofNat 32 (w % 2 ^ nbits))).toOption else none

end Sys2Proof
end

