-- ==== Sys2Proof/Machine/Numeric.lean ====
section
/-! DEFINITION. The numbers of the engine: binary32 values, signed bytes, rounding and clamping
(`00_scope.md` sections 6.1 to 6.3, R5 to R8). -/

namespace Sys2Proof.Machine

/-- The sign bit `s = w[31]` of a binary32 pattern (R5). -/
def fsign (w : Word) : Bool := w.getLsbD 31

/-- The exponent field `e = w[30:23]` (R5). -/
def fexp (w : Word) : Nat := (w.extractLsb' 23 8).toNat

/-- The fraction field `f = w[22:0]` (R5). -/
def ffrac (w : Word) : Nat := (w.extractLsb' 0 23).toNat

/-- The pattern with sign `neg`, exponent field `e` and fraction field `f` (R5). -/
def packF (neg : Bool) (e f : Nat) : Word :=
  BitVec.ofNat 32 ((if neg then 2 ^ 31 else 0) + e * 2 ^ 23 + f)

/-- `(-1)^s`. -/
def signFactor (neg : Bool) : ℚ := if neg then -1 else 1

/-- What a binary32 pattern stands for: the four rows of the table of R5. -/
inductive FValue where
  | finite (v : ℚ)
  | infinite (neg : Bool)
  | nan
  deriving DecidableEq, Repr

/-- The classification of R5; the exponents `-149` and `e - 150` are written as quotients of powers
of two. -/
def classify (w : Word) : FValue :=
  if fexp w = 255 then
    if ffrac w = 0 then .infinite (fsign w) else .nan
  else if fexp w = 0 then .finite (signFactor (fsign w) * ffrac w / 2 ^ 149)
  else .finite (signFactor (fsign w) * (2 ^ 23 + ffrac w) * 2 ^ fexp w / 2 ^ 150)

/-- `finite(w)` holds exactly when `e != 255` (R5). -/
def finite (w : Word) : Bool := fexp w != 255

/-- `fval(w)` of a finite pattern, an exact rational (R5). The rules read it on finite patterns only;
the 0 given to an infinity or a NaN is never used as a value. -/
def fval (w : Word) : ℚ :=
  match classify w with
  | .finite v => v
  | .infinite _ => 0
  | .nan => 0

/-- `fenc_int(n)`: the pattern of the integer `n`, `|n| <= 2^24`, by the construction of R6. -/
def fencInt (n : Int) : Word :=
  if n = 0 then 0
  else packF (decide (n < 0)) (127 + n.natAbs.log2) (n.natAbs * 2 ^ 23 / 2 ^ n.natAbs.log2 - 2 ^ 23)

/-- `rha(x)`: round to the nearest integer, halves away from zero (R7). -/
def rha (x : ℚ) : Int := if 0 ≤ x then (x + 1 / 2).floor else -(-x + 1 / 2).floor

/-- `clamp8(n)` (R8). -/
def clamp8 (n : Int) : Int := if n < -128 then -128 else if n > 127 then 127 else n

/-- `sint8(b)`: a byte read as two's complement (section 6.1). -/
def sint8 (b : Byte) : Int := if b.toNat < 128 then b.toNat else (b.toNat : Int) - 256

/-- `enc8(n) = n mod 256` (section 6.1). -/
def enc8 (n : Int) : Byte := BitVec.ofInt 8 n

/-- `|fval(w)| > 2^24` of a finite pattern, in terms of the pattern: `w[30:0] > 0x4B800000` (R67). -/
def overRange (w : Word) : Bool := decide (0x4B800000 < (w.extractLsb' 0 31).toNat)

/-- The largest source magnitude `M = max_i |fval(S[i])|` (R64). -/
def blockMax (S : FBlock) : ℚ :=
  (List.finRange 64).foldl (fun m i => max m |fval S[i]|) 0

end Sys2Proof.Machine
end

