-- ==== Sys2Proof/Machine/Exact.lean ====
section
/-! DEFINITION. The exact transforms over the reals and the accuracy contract that the two transform
datapaths obey (`40_transform.md` R60, R61, R63, R64, R67). Nothing here is executed: the reals occur
only in the contract, a proposition. -/

namespace Sys2Proof.Machine

/-- The normalisation factors `α(0) = 1/√8`, `α(k>0) = √(2/8)` (R60). -/
noncomputable def alpha (k : Fin 8) : ℝ := if k = 0 then 1 / √8 else √(2 / 8)

/-- The cosine factor `cos(π(2m+1)k/16)` of R60, R61, R63. -/
noncomputable def cosTerm (k m : Fin 8) : ℝ := Real.cos (Real.pi * (2 * m.val + 1) * k.val / 16)

/-- The basis matrix `C[k][m]` (R60). -/
noncomputable def basis (k m : Fin 8) : ℝ := alpha k * cosTerm k m

/-- `fdct_exact` (R61). -/
noncomputable def fdctExact (X : Elem → ℝ) (i : Elem) : ℝ :=
  alpha (rowOf i) * alpha (colOf i) *
    ∑ m : Fin 8, ∑ n : Fin 8, X (blockIdx m n) * cosTerm (rowOf i) m * cosTerm (colOf i) n

/-- `idct_exact` (R63). -/
noncomputable def idctExact (D : Elem → ℝ) (i : Elem) : ℝ :=
  ∑ p : Fin 8, ∑ q : Fin 8,
    alpha p * alpha q * D (blockIdx p q) * cosTerm p (rowOf i) * cosTerm q (colOf i)

/-- `TOL(M) = max(1/1000, M/2^20)` (R64; R3: `DCT_TOL`, `X_NOM`). -/
def tol (M : ℚ) : ℚ := max (1 / 1000) (M / 2 ^ 20)

/-- A block passes `check_transform`: every element finite, none above `2^24` in magnitude (R67). -/
def inRange (S : FBlock) : Bool :=
  (List.finRange 64).all fun i => finite S[i] && !overRange S[i]

/-- The accuracy contract of R64 for one datapath: on every block that passes the operand check, every
result element is finite and within `TOL(M)` of the exact result. -/
def Accurate (exact : (Elem → ℝ) → Elem → ℝ) (impl : FBlock → FBlock) : Prop :=
  ∀ S : FBlock, inRange S = true → ∀ i : Elem,
    finite (impl S)[i] = true ∧
      |(fval (impl S)[i] : ℝ) - exact (fun j => (fval S[j] : ℝ)) i| ≤ (tol (blockMax S) : ℝ)

end Sys2Proof.Machine
end

