-- ==== Sys2Proof/Laws/Basis.lean ====
section
/-! SUPPORT. The numbers of the DCT basis (`40_transform.md` R60, R68): every entry is `±c_j/2`, the
closed forms of the seven cosines, and a table of 12-digit decimals with a proved error. -/

namespace Sys2Proof.Laws

open Sys2Proof.Machine

/-- `c_n = cos(nπ/16)` for any `n` (R68). -/
noncomputable def cosN (n : ℕ) : ℝ := Real.cos (n * Real.pi / 16)

theorem cosN_add32 (n : ℕ) : cosN (n + 32) = cosN n := by
  unfold cosN
  rw [← Real.cos_add_two_pi (n * Real.pi / 16)]
  congr 1; push_cast; ring

theorem cosN_mod (n : ℕ) : cosN n = cosN (n % 32) := by
  conv_lhs => rw [← Nat.div_add_mod n 32]
  generalize n / 32 = k
  induction k with
  | zero => simp
  | succ k ih => rw [← ih, ← cosN_add32 (32 * k + n % 32)]; congr 1; ring

theorem cosN_neg (r : ℕ) (h : r ≤ 32) : cosN (32 - r) = cosN r := by
  unfold cosN
  rw [← Real.cos_two_pi_sub (r * Real.pi / 16)]
  congr 1; push_cast [h]; ring

theorem cosN_half (r : ℕ) (h : r ≤ 16) : cosN (16 - r) = -cosN r := by
  unfold cosN
  rw [← Real.cos_pi_sub]
  congr 1; push_cast [h]; ring

theorem cosTerm_eq_cosN (k m : Fin 8) : cosTerm k m = cosN ((2 * m.val + 1) * k.val) := by
  unfold cosTerm cosN
  congr 1; push_cast; ring

/-- The index `j <= 8` and sign with `c_n = ± c_j` (R68: reducing `(2m+1)k` modulo 32). -/
def reduceCos (n : ℕ) : Bool × ℕ :=
  let r := n % 32
  if r ≤ 8 then (false, r)
  else if r ≤ 16 then (true, 16 - r)
  else if r ≤ 24 then (true, r - 16)
  else (false, 32 - r)

theorem cosN_reduce (n : ℕ) :
    cosN n = if (reduceCos n).1 then -cosN (reduceCos n).2 else cosN (reduceCos n).2 := by
  rw [cosN_mod]
  have hr : n % 32 < 32 := Nat.mod_lt _ (by norm_num)
  unfold reduceCos
  generalize n % 32 = r at hr
  by_cases h8 : r ≤ 8
  · simp [h8]
  by_cases h16 : r ≤ 16
  · simp only [h8, h16, if_true, if_false]
    rw [cosN_half r h16, neg_neg]
  by_cases h24 : r ≤ 24
  · simp only [h8, h16, h24, if_true, if_false]
    rw [← cosN_neg r (by omega), show 32 - r = 16 - (r - 16) by omega, cosN_half _ (by omega)]
  · simp [h8, h16, h24, cosN_neg r (by omega)]

theorem cosN_0 : cosN 0 = 1 := by simp [cosN]

theorem cosN_4 : cosN 4 = √2 / 2 := by
  rw [cosN, ← Real.cos_pi_div_four]; congr 1; push_cast; ring

theorem cosN_2 : cosN 2 = √(2 + √2) / 2 := by
  rw [cosN, ← Real.cos_pi_div_eight]; congr 1; push_cast; ring

theorem cosN_6 : cosN 6 = √(2 - √2) / 2 := by
  rw [cosN, ← Real.sin_pi_div_eight, ← Real.cos_pi_div_two_sub]; congr 1; push_cast; ring

theorem cosN_1 : cosN 1 = √(2 + √(2 + √2)) / 2 := by
  rw [cosN, ← Real.cos_pi_div_sixteen]; congr 1; push_cast; ring

theorem cosN_7 : cosN 7 = √(2 - √(2 + √2)) / 2 := by
  rw [cosN, ← Real.sin_pi_div_sixteen, ← Real.cos_pi_div_two_sub]; congr 1; push_cast; ring

/-- The half-angle formula for a cosine of the first quadrant. -/
theorem cosN_half_angle (j : ℕ) (h : j ≤ 8) : cosN j = √((1 + cosN (2 * j)) / 2) := by
  have hp := Real.pi_pos
  have hj : (j : ℝ) ≤ 8 := by exact_mod_cast h
  have h0 : 0 ≤ cosN j := by
    apply Real.cos_nonneg_of_neg_pi_div_two_le_of_le
    · have : (0 : ℝ) ≤ j * Real.pi / 16 := by positivity
      linarith
    · nlinarith
  rw [← Real.sqrt_sq h0]
  congr 1
  unfold cosN
  rw [Real.cos_sq]
  push_cast
  ring_nf

theorem cosN_3 : cosN 3 = √(2 + √(2 - √2)) / 2 := by
  rw [cosN_half_angle 3 (by norm_num), cosN_6,
    show (1 + √(2 - √2) / 2) / 2 = (2 + √(2 - √2)) / 2 ^ 2 by ring, Real.sqrt_div' _ (by positivity),
    Real.sqrt_sq (by norm_num)]

theorem cosN_5 : cosN 5 = √(2 - √(2 - √2)) / 2 := by
  have h10 : cosN 10 = -cosN 6 := by simpa using cosN_half 6 (by norm_num)
  rw [cosN_half_angle 5 (by norm_num), h10, cosN_6,
    show (1 + -(√(2 - √2) / 2)) / 2 = (2 - √(2 - √2)) / 2 ^ 2 by ring, Real.sqrt_div' _ (by positivity),
    Real.sqrt_sq (by norm_num)]

theorem cosN_8 : cosN 8 = 0 := by
  rw [cosN, ← Real.cos_pi_div_two]; congr 1; push_cast; ring

/-- R60: `α(0) = 1/√8 = c_4/2`. -/
theorem alpha_zero : alpha 0 = cosN 4 / 2 := by
  rw [alpha, if_pos rfl, cosN_4, show (8 : ℝ) = 2 ^ 2 * 2 by norm_num, Real.sqrt_mul (by norm_num),
    Real.sqrt_sq (by norm_num)]
  have : √2 * √2 = (2 : ℝ) := Real.mul_self_sqrt (by norm_num)
  have h0 : √2 ≠ (0 : ℝ) := by positivity
  field_simp
  nlinarith

/-- R60: `α(k) = 1/2` for `k >= 1`. -/
theorem alpha_pos (k : Fin 8) (h : k ≠ 0) : alpha k = 1 / 2 := by
  rw [alpha, if_neg h, show (2 / 8 : ℝ) = (1 / 2) ^ 2 by norm_num, Real.sqrt_sq (by norm_num)]

/-- R68: the basis matrix in terms of the halved cosines. -/
theorem basis_zero (m : Fin 8) : basis 0 m = cosN 4 / 2 := by
  rw [basis, alpha_zero, cosTerm_eq_cosN]; simp [cosN_0]

theorem basis_pos (k m : Fin 8) (h : k ≠ 0) : basis k m = cosN ((2 * m.val + 1) * k.val) / 2 := by
  rw [basis, alpha_pos k h, cosTerm_eq_cosN]; ring

/-- `c_j / 2` rounded to 13 digits, `j` = 0 to 8 (R68). -/
def halfCosApprox : ℕ → ℚ
  | 0 => 1 / 2
  | 1 => 0.4903926402016
  | 2 => 0.4619397662556
  | 3 => 0.4157348061513
  | 4 => 0.3535533905933
  | 5 => 0.2777851165098
  | 6 => 0.1913417161825
  | 7 => 0.0975451610081
  | _ => 0

/-- An interval for `√x` from an interval for `x`. -/
theorem sqrt_bounds {x a b : ℝ} (h1 : a ^ 2 ≤ x) (h2 : x ≤ b ^ 2) (hb : 0 ≤ b) :
    a ≤ √x ∧ √x ≤ b :=
  ⟨Real.le_sqrt_of_sq_le h1, (Real.sqrt_le_left hb).mpr h2⟩

theorem sqrt2_bounds : (1.41421356237309 : ℝ) ≤ √2 ∧ √2 ≤ 1.41421356237310 :=
  sqrt_bounds (by norm_num) (by norm_num) (by norm_num)

theorem sqrt2p_bounds : (1.84775906502257 : ℝ) ≤ √(2 + √2) ∧ √(2 + √2) ≤ 1.84775906502258 := by
  obtain ⟨h1, h2⟩ := sqrt2_bounds
  exact sqrt_bounds (by norm_num; linarith) (by norm_num; linarith) (by norm_num)

theorem sqrt2m_bounds : (0.76536686473016 : ℝ) ≤ √(2 - √2) ∧ √(2 - √2) ≤ 0.76536686473020 := by
  obtain ⟨h1, h2⟩ := sqrt2_bounds
  exact sqrt_bounds (by norm_num; linarith) (by norm_num; linarith) (by norm_num)

/-- The table of R68 is right to 12 digits. -/
theorem halfCosApprox_error (j : ℕ) (h : j ≤ 8) :
    |cosN j / 2 - (halfCosApprox j : ℝ)| ≤ 1 / 10 ^ 12 := by
  obtain ⟨a1, a2⟩ := sqrt2_bounds
  obtain ⟨b1, b2⟩ := sqrt2p_bounds
  obtain ⟨c1, c2⟩ := sqrt2m_bounds
  interval_cases j
  · norm_num [cosN_0, halfCosApprox]
  · have ⟨d1, d2⟩ : (1.9615705608064 : ℝ) ≤ √(2 + √(2 + √2)) ∧ √(2 + √(2 + √2)) ≤ 1.9615705608065 :=
      sqrt_bounds (by norm_num; linarith) (by norm_num; linarith) (by norm_num)
    rw [cosN_1, abs_le]; norm_num [halfCosApprox]; constructor <;> linarith
  · rw [cosN_2, abs_le]; norm_num [halfCosApprox]; constructor <;> linarith
  · have ⟨d1, d2⟩ : (1.6629392246050 : ℝ) ≤ √(2 + √(2 - √2)) ∧ √(2 + √(2 - √2)) ≤ 1.6629392246051 :=
      sqrt_bounds (by norm_num; linarith) (by norm_num; linarith) (by norm_num)
    rw [cosN_3, abs_le]; norm_num [halfCosApprox]; constructor <;> linarith
  · rw [cosN_4, abs_le]; norm_num [halfCosApprox]; constructor <;> linarith
  · have ⟨d1, d2⟩ : (1.11114046603915 : ℝ) ≤ √(2 - √(2 - √2)) ∧ √(2 - √(2 - √2)) ≤ 1.11114046603925 :=
      sqrt_bounds (by norm_num; linarith) (by norm_num; linarith) (by norm_num)
    rw [cosN_5, abs_le]; norm_num [halfCosApprox]; constructor <;> linarith
  · rw [cosN_6, abs_le]; norm_num [halfCosApprox]; constructor <;> linarith
  · have ⟨d1, d2⟩ : (0.3901806440322 : ℝ) ≤ √(2 - √(2 + √2)) ∧ √(2 - √(2 + √2)) ≤ 0.3901806440323 :=
      sqrt_bounds (by norm_num; linarith) (by norm_num; linarith) (by norm_num)
    rw [cosN_7, abs_le]; norm_num [halfCosApprox]; constructor <;> linarith
  · norm_num [cosN_8, halfCosApprox]

/-- The basis matrix in rationals, from the table of R68. -/
def basisApprox (k m : Fin 8) : ℚ :=
  if k = 0 then halfCosApprox 4
  else
    let r := reduceCos ((2 * m.val + 1) * k.val)
    if r.1 then -halfCosApprox r.2 else halfCosApprox r.2

theorem reduceCos_le (n : ℕ) : (reduceCos n).2 ≤ 8 := by
  unfold reduceCos
  simp only
  split_ifs <;> simp only <;> omega

theorem basisApprox_error (k m : Fin 8) :
    |basis k m - (basisApprox k m : ℝ)| ≤ 1 / 10 ^ 12 := by
  unfold basisApprox
  split_ifs with hk
  · subst hk; rw [basis_zero]; exact halfCosApprox_error 4 (by norm_num)
  · rw [basis_pos k m hk, cosN_reduce]
    have h := halfCosApprox_error _ (reduceCos_le ((2 * m.val + 1) * k.val))
    simp only
    split_ifs
    · rw [abs_sub_comm] at h
      rw [Rat.cast_neg]
      convert h using 2
      ring
    · exact h

end Sys2Proof.Laws
end

