-- ==== Sys2Proof/Laws/Numeric.lean ====
section
/-! SUPPORT. Small laws of the number formats: the fields of a packed pattern, the value of a pattern,
the largest magnitude of a block (`00_scope.md` R5, R6, R8; `40_transform.md` R64, R67). -/

namespace Sys2Proof.Machine

theorem packF_toNat (neg : Bool) (e f : Nat) (he : e < 256) (hf : f < 2 ^ 23) :
    (packF neg e f).toNat = (if neg then 2 ^ 31 else 0) + e * 2 ^ 23 + f := by
  unfold packF
  rw [BitVec.toNat_ofNat]
  apply Nat.mod_eq_of_lt
  cases neg <;> simp <;> omega

theorem fsign_eq (w : Word) : fsign w = decide (2 ^ 31 ≤ w.toNat) := by
  unfold fsign
  rw [BitVec.getLsbD, Nat.testBit_eq_decide_div_mod_eq]
  have := w.isLt
  congr 1
  apply propext
  omega

theorem fexp_eq (w : Word) : fexp w = w.toNat / 2 ^ 23 % 2 ^ 8 := by
  simp [fexp, BitVec.extractLsb'_toNat, Nat.shiftRight_eq_div_pow]

theorem ffrac_eq (w : Word) : ffrac w = w.toNat % 2 ^ 23 := by
  simp [ffrac, BitVec.extractLsb'_toNat]

/-- The three fields make up the pattern. -/
theorem toNat_eq_fields (w : Word) :
    w.toNat = (if fsign w then 2 ^ 31 else 0) + fexp w * 2 ^ 23 + ffrac w := by
  rw [fsign_eq, fexp_eq, ffrac_eq]
  have := w.isLt
  simp only [decide_eq_true_eq]
  split <;> omega

theorem eq_packF (w : Word) : w = packF (fsign w) (fexp w) (ffrac w) := by
  apply BitVec.eq_of_toNat_eq
  rw [packF_toNat, ← toNat_eq_fields]
  · rw [fexp_eq]; omega
  · rw [ffrac_eq]; omega

theorem fexp_lt (w : Word) : fexp w < 256 := by rw [fexp_eq]; omega

theorem ffrac_lt (w : Word) : ffrac w < 2 ^ 23 := by rw [ffrac_eq]; omega

section packed
variable (neg : Bool) (e f : Nat) (he : e < 256) (hf : f < 2 ^ 23)
include he hf

theorem fsign_packF : fsign (packF neg e f) = neg := by
  rw [fsign_eq, packF_toNat neg e f he hf]
  cases neg <;> simp <;> omega

theorem fexp_packF : fexp (packF neg e f) = e := by
  rw [fexp_eq, packF_toNat neg e f he hf]
  cases neg <;> simp <;> omega

theorem ffrac_packF : ffrac (packF neg e f) = f := by
  rw [ffrac_eq, packF_toNat neg e f he hf]
  cases neg <;> simp <;> omega

end packed

theorem finite_iff (w : Word) : finite w = true ↔ fexp w ≠ 255 := by simp [finite]

theorem fval_subnormal (w : Word) (h : fexp w = 0) :
    fval w = signFactor (fsign w) * ffrac w / 2 ^ 149 := by
  simp [fval, classify, h]

theorem fval_normal (w : Word) (h0 : fexp w ≠ 0) (h : fexp w ≠ 255) :
    fval w = signFactor (fsign w) * (2 ^ 23 + ffrac w) * 2 ^ fexp w / 2 ^ 150 := by
  simp [fval, classify, h, h0]

theorem fval_zero : fval 0 = 0 := by
  rw [fval_subnormal _ (by decide)]
  rw [show ffrac 0 = 0 by decide]
  simp

theorem abs_signFactor (neg : Bool) : |signFactor neg| = 1 := by
  cases neg <;> simp [signFactor]

/-- Value of a packed normal pattern. -/
theorem fval_packF (neg : Bool) (e f : Nat) (he : e < 255) (h0 : e ≠ 0) (hf : f < 2 ^ 23) :
    fval (packF neg e f) = signFactor neg * (2 ^ 23 + f) * 2 ^ e / 2 ^ 150 := by
  have he' : e < 256 := by omega
  rw [fval_normal] <;>
    simp only [fexp_packF neg e f he' hf, fsign_packF neg e f he' hf, ffrac_packF neg e f he' hf]
  · exact h0
  · omega

theorem finite_packF (neg : Bool) (e f : Nat) (he : e < 255) (hf : f < 2 ^ 23) :
    finite (packF neg e f) = true := by
  rw [finite_iff, fexp_packF neg e f (by omega) hf]; omega

/-- `overRange` says what R67 says of a finite pattern: `|fval(w)| > 2^24`. -/
theorem overRange_iff (w : Word) (h : finite w = true) :
    overRange w = true ↔ (2 : ℚ) ^ 24 < |fval w| := by
  rw [finite_iff] at h
  have hm : (w.extractLsb' 0 31).toNat = fexp w * 2 ^ 23 + ffrac w := by
    rw [BitVec.extractLsb'_toNat, fexp_eq, ffrac_eq]
    have := w.isLt
    simp only [Nat.shiftRight_zero]
    omega
  have hf := ffrac_lt w
  unfold overRange
  rw [hm, decide_eq_true_iff]
  have hfq : (ffrac w : ℚ) < 2 ^ 23 := by exact_mod_cast hf
  have hf0 : (0 : ℚ) ≤ ffrac w := by positivity
  by_cases h0 : fexp w = 0
  · rw [fval_subnormal w h0, h0, abs_div, abs_mul, abs_signFactor]
    constructor
    · intro; omega
    · intro h'
      exfalso
      rw [abs_of_nonneg hf0, abs_of_pos (by positivity), lt_div_iff₀ (by positivity)] at h'
      norm_num at h' hfq
      linarith
  · rw [fval_normal w h0 h, abs_div, abs_mul, abs_mul, abs_signFactor,
      abs_of_nonneg (by positivity : (0 : ℚ) ≤ 2 ^ 23 + ffrac w), abs_of_pos (by positivity),
      abs_of_pos (by positivity), lt_div_iff₀ (by positivity), one_mul]
    obtain hlt | he | hgt := lt_trichotomy (fexp w) 151
    · constructor
      · intro; omega
      · intro h'
        exfalso
        have : (2 : ℚ) ^ fexp w ≤ 2 ^ 150 := pow_le_pow_right₀ (by norm_num) (by omega)
        have h2 : ((2 : ℚ) ^ 23 + ffrac w) * 2 ^ fexp w ≤ 2 ^ 24 * 2 ^ 150 := by
          apply mul_le_mul <;> first | positivity | assumption | linarith
        linarith
    · rw [he]
      constructor
      · intro hl
        have : 1 ≤ ffrac w := by omega
        have : (1 : ℚ) ≤ ffrac w := by exact_mod_cast this
        norm_num
        linarith
      · intro h'
        have : (0 : ℚ) < ffrac w := by norm_num at h'; linarith
        have : 0 < ffrac w := by exact_mod_cast this
        omega
    · constructor
      · intro
        have : (2 : ℚ) ^ 152 ≤ 2 ^ fexp w := pow_le_pow_right₀ (by norm_num) (by omega)
        nlinarith [mul_le_mul_of_nonneg_left this (by positivity : (0 : ℚ) ≤ 2 ^ 23 + ffrac w),
          (by positivity : (0 : ℚ) < 2 ^ 152)]
      · intro; omega

theorem foldl_max_ge (S : FBlock) (l : List Elem) (m : ℚ) :
    m ≤ l.foldl (fun m i => max m |fval S[i]|) m ∧
      ∀ i ∈ l, |fval S[i]| ≤ l.foldl (fun m i => max m |fval S[i]|) m := by
  induction l generalizing m with
  | nil => simp
  | cons a l ih =>
    obtain ⟨h1, h2⟩ := ih (max m |fval S[a]|)
    refine ⟨le_trans (le_max_left _ _) h1, ?_⟩
    intro i hi
    rcases List.mem_cons.mp hi with rfl | hi
    · exact le_trans (le_max_right _ _) h1
    · exact h2 i hi

theorem foldl_max_le (S : FBlock) (l : List Elem) (m b : ℚ) (hm : m ≤ b)
    (h : ∀ i ∈ l, |fval S[i]| ≤ b) : l.foldl (fun m i => max m |fval S[i]|) m ≤ b := by
  induction l generalizing m with
  | nil => simpa
  | cons a l ih =>
    exact ih _ (max_le hm (h a (by simp))) fun i hi => h i (by simp [hi])

/-- Every element is at most `blockMax` in magnitude. -/
theorem abs_fval_le_blockMax (S : FBlock) (i : Elem) : |fval S[i]| ≤ blockMax S :=
  (foldl_max_ge S _ 0).2 i (List.mem_finRange i)

theorem blockMax_nonneg (S : FBlock) : 0 ≤ blockMax S := (foldl_max_ge S _ 0).1

/-- `blockMax` is the least bound. -/
theorem blockMax_le_iff (S : FBlock) (b : ℚ) :
    blockMax S ≤ b ↔ 0 ≤ b ∧ ∀ i : Elem, |fval S[i]| ≤ b :=
  ⟨fun h => ⟨le_trans (blockMax_nonneg S) h, fun i => le_trans (abs_fval_le_blockMax S i) h⟩,
   fun h => foldl_max_le S _ 0 b h.1 fun i _ => h.2 i⟩

theorem inRange_iff (S : FBlock) :
    inRange S = true ↔ ∀ i : Elem, finite S[i] = true ∧ |fval S[i]| ≤ 2 ^ 24 := by
  simp only [inRange, List.all_eq_true, List.mem_finRange, true_implies, Bool.and_eq_true]
  refine forall_congr' fun i => and_congr_right fun hf => ?_
  rw [← not_lt, ← overRange_iff _ hf]
  simp

theorem tol_ge_thousandth (M : ℚ) : 1 / 1000 ≤ tol M := le_max_left _ _

theorem tol_of_le (M : ℚ) (h : M ≤ 1024) : tol M = 1 / 1000 :=
  max_eq_left (le_trans (div_le_div_of_nonneg_right h (by norm_num)) (by norm_num))

end Sys2Proof.Machine
end

