-- ==== Sys2Proof/Laws/Reference.lean ====
section
/-! SUPPORT. The accuracy contract of `40_transform.md` R64 can be met: a reference datapath in rational
arithmetic, with the proof that it obeys the contract for either transform. It is NOT the model's result:
the model's datapaths are the opaque units of `Config.lean`, of which only the contract is known. -/

namespace Sys2Proof.Laws

open Sys2Proof.Machine

/-- The separable sum `Σ_m Σ_n a_m * b_n * X[8m+n]` that both transforms are, element by element. -/
def sepSum {K : Type} [Semiring K] (a b : Fin 8 → K) (X : Elem → K) : K :=
  ∑ m : Fin 8, ∑ n : Fin 8, a m * b n * X (blockIdx m n)

theorem fdctExact_eq_sepSum (X : Elem → ℝ) (i : Elem) :
    fdctExact X i = sepSum (basis (rowOf i)) (basis (colOf i)) X := by
  unfold fdctExact sepSum basis
  rw [Finset.mul_sum]
  refine Finset.sum_congr rfl fun m _ => ?_
  rw [Finset.mul_sum]
  exact Finset.sum_congr rfl fun n _ => by ring

theorem idctExact_eq_sepSum (D : Elem → ℝ) (i : Elem) :
    idctExact D i = sepSum (fun p => basis p (rowOf i)) (fun q => basis q (colOf i)) D := by
  unfold idctExact sepSum basis
  exact Finset.sum_congr rfl fun m _ => Finset.sum_congr rfl fun n _ => by ring

/-- Two separable sums whose weights differ by at most `1/10^12` differ by at most `M/10^10`. -/
theorem sepSum_error (a b a' b' : Fin 8 → ℝ) (X : Elem → ℝ) (M : ℝ)
    (ha : ∀ m, |a m - a' m| ≤ 1 / 10 ^ 12) (hb : ∀ m, |b m - b' m| ≤ 1 / 10 ^ 12)
    (ha1 : ∀ m, |a' m| ≤ 1 / 2) (hb1 : ∀ m, |b' m| ≤ 1 / 2) (hX : ∀ i, |X i| ≤ M) :
    |sepSum a b X - sepSum a' b' X| ≤ M / 10 ^ 10 := by
  have hM : 0 ≤ M := le_trans (abs_nonneg _) (hX 0)
  have hterm : ∀ m n, |a m * b n * X (blockIdx m n) - a' m * b' n * X (blockIdx m n)| ≤
      11 / 10 ^ 13 * M := by
    intro m n
    rw [← sub_mul, abs_mul]
    refine mul_le_mul ?_ (hX _) (abs_nonneg _) (by norm_num)
    have hbn : |b n| ≤ 51 / 100 := by
      have := abs_add_le (b n - b' n) (b' n)
      rw [sub_add_cancel] at this
      have := hb n; have := hb1 n
      norm_num at *; linarith
    calc |a m * b n - a' m * b' n| = |(a m - a' m) * b n + a' m * (b n - b' n)| := by ring_nf
      _ ≤ |a m - a' m| * |b n| + |a' m| * |b n - b' n| := by
        rw [← abs_mul, ← abs_mul]; exact abs_add_le _ _
      _ ≤ 1 / 10 ^ 12 * (51 / 100) + 1 / 2 * (1 / 10 ^ 12) := by
        gcongr
        · exact ha m
        · exact ha1 m
        · exact hb n
      _ ≤ 11 / 10 ^ 13 := by norm_num
  unfold sepSum
  rw [← Finset.sum_sub_distrib]
  refine le_trans (Finset.abs_sum_le_sum_abs _ _) ?_
  refine le_trans (Finset.sum_le_sum (g := fun _ => 88 / 10 ^ 13 * M) fun m _ => ?_) ?_
  · rw [← Finset.sum_sub_distrib]
    refine le_trans (Finset.abs_sum_le_sum_abs _ _) ?_
    refine le_trans (Finset.sum_le_sum fun n _ => hterm m n) ?_
    simp; linarith
  · simp; linarith

/-- The gain bound of a separable sum (R66 item 4): `8 * M`. -/
theorem sepSum_gain (a b : Fin 8 → ℝ) (X : Elem → ℝ) (M : ℝ) (ha : ∑ m, |a m| ≤ 2 * √2)
    (hb : ∑ m, |b m| ≤ 2 * √2) (hX : ∀ i, |X i| ≤ M) : |sepSum a b X| ≤ 8 * M := by
  have hM : 0 ≤ M := le_trans (abs_nonneg _) (hX 0)
  unfold sepSum
  calc |∑ m, ∑ n, a m * b n * X (blockIdx m n)|
      ≤ ∑ m, ∑ n, |a m| * |b n| * M := by
        refine le_trans (Finset.abs_sum_le_sum_abs _ _) (Finset.sum_le_sum fun m _ => ?_)
        refine le_trans (Finset.abs_sum_le_sum_abs _ _) (Finset.sum_le_sum fun n _ => ?_)
        rw [abs_mul, abs_mul]
        exact mul_le_mul_of_nonneg_left (hX _) (by positivity)
    _ = (∑ m, |a m|) * (∑ n, |b n|) * M := by
        simp_rw [← Finset.sum_mul, Finset.sum_mul_sum]
    _ ≤ (2 * √2) * (2 * √2) * M := by
        gcongr
    _ = 8 * M := by
        have : √2 * √2 = (2 : ℝ) := Real.mul_self_sqrt (by norm_num)
        linear_combination (4 * M) * this

theorem basisApprox_half (k m : Fin 8) : |basisApprox k m| ≤ 1 / 2 := by
  revert k m; decide +kernel

theorem basisApprox_row_sum (k : Fin 8) (h0 : k ≠ 0) (h4 : k ≠ 4) :
    ∑ m, |basisApprox k m| ≤ 2.7 := by
  revert k; decide +kernel

theorem basisApprox_col_sum (m : Fin 8) : ∑ k, |basisApprox k m| ≤ 2.7 := by
  revert m; decide +kernel

theorem sum_abs_le (a : Fin 8 → ℝ) (a' : Fin 8 → ℚ) (ha : ∀ m, |a m - (a' m : ℝ)| ≤ 1 / 10 ^ 12)
    (hs : ∑ m, |a' m| ≤ 2.7) : ∑ m, |a m| ≤ 2 * √2 := by
  have hq : (∑ m, |(a' m : ℝ)|) ≤ 2.7 := by
    have : ((∑ m, |a' m| : ℚ) : ℝ) ≤ ((2.7 : ℚ) : ℝ) := by exact_mod_cast hs
    push_cast at this
    norm_num at this ⊢
    exact this
  have : ∑ m, |a m| ≤ ∑ m, (|(a' m : ℝ)| + 1 / 10 ^ 12) := by
    refine Finset.sum_le_sum fun m _ => ?_
    have h1 := abs_add_le (a m - a' m) (a' m)
    rw [sub_add_cancel] at h1
    linarith [ha m]
  rw [Finset.sum_add_distrib] at this
  simp only [Finset.sum_const, Finset.card_univ, Fintype.card_fin, nsmul_eq_mul] at this
  have h2 := sqrt2_bounds.1
  norm_num at *
  linarith

theorem abs_basis_four (m : Fin 8) : |basis 4 m| = cosN 4 / 2 := by
  have hj : (reduceCos ((2 * m.val + 1) * 4)).2 = 4 := by revert m; decide
  have hpos : 0 ≤ cosN 4 / 2 := by rw [cosN_4]; positivity
  rw [basis_pos 4 m (by decide), show ((4 : Fin 8) : ℕ) = 4 from rfl, cosN_reduce, hj]
  split_ifs
  · rw [neg_div, abs_neg, abs_of_nonneg hpos]
  · rw [abs_of_nonneg hpos]

/-- R66 item 4: the rows and the columns of the basis sum to at most `√8` in magnitude. -/
theorem basis_row_abs_sum (k : Fin 8) : ∑ m, |basis k m| ≤ 2 * √2 := by
  have hc : ∑ _m : Fin 8, cosN 4 / 2 ≤ 2 * √2 := by
    rw [cosN_4]
    simp only [Finset.sum_const, Finset.card_univ, Fintype.card_fin, nsmul_eq_mul]
    push_cast
    linarith
  by_cases h0 : k = 0
  · subst h0
    refine le_trans (le_of_eq (Finset.sum_congr rfl fun m _ => ?_)) hc
    rw [basis_zero, abs_of_nonneg (by rw [cosN_4]; positivity)]
  by_cases h4 : k = 4
  · subst h4
    exact le_trans (le_of_eq (Finset.sum_congr rfl fun m _ => abs_basis_four m)) hc
  · exact sum_abs_le _ _ (fun m => basisApprox_error k m) (basisApprox_row_sum k h0 h4)

theorem basis_col_abs_sum (m : Fin 8) : ∑ k, |basis k m| ≤ 2 * √2 :=
  sum_abs_le _ _ (fun k => basisApprox_error k m) (basisApprox_col_sum m)

/-! ### Rounding to a grid of binary32 values -/

/-- The exact quotient in the fraction of a packed integer. -/
theorem int_mantissa (a : ℕ) (h0 : a ≠ 0) (h : a ≤ 2 ^ 24) :
    a * 2 ^ 23 / 2 ^ a.log2 * 2 ^ a.log2 = a * 2 ^ 23 ∧ 2 ^ 23 ≤ a * 2 ^ 23 / 2 ^ a.log2 ∧
      a * 2 ^ 23 / 2 ^ a.log2 < 2 ^ 24 ∧ a.log2 ≤ 24 := by
  have h1 : 2 ^ a.log2 ≤ a := Nat.log2_self_le h0
  have h2 : a < 2 ^ (a.log2 + 1) := Nat.lt_log2_self
  have hk : a.log2 ≤ 24 := by
    by_contra hc
    have : 2 ^ 25 ≤ 2 ^ a.log2 := Nat.pow_le_pow_right (by norm_num) (by omega)
    omega
  have hpos : 0 < 2 ^ a.log2 := by positivity
  have hdvd : 2 ^ a.log2 ∣ a * 2 ^ 23 := by
    by_cases h24 : a.log2 = 24
    · rw [h24] at h1 ⊢
      have : a = 2 ^ 24 := by omega
      rw [this]; exact Dvd.intro _ rfl
    · exact Dvd.dvd.mul_left (pow_dvd_pow 2 (by omega)) a
  refine ⟨Nat.div_mul_cancel hdvd, ?_, ?_, hk⟩
  · rw [Nat.le_div_iff_mul_le hpos]; nlinarith
  · rw [Nat.div_lt_iff_lt_mul hpos]
    rw [pow_succ] at h2
    nlinarith

/-- The pattern of `n * 2^c / 2^127`. -/
def packScaled (n : ℤ) (c : ℕ) : Word :=
  if n = 0 then 0
  else packF (decide (n < 0)) (c + n.natAbs.log2) (n.natAbs * 2 ^ 23 / 2 ^ n.natAbs.log2 - 2 ^ 23)

theorem fencInt_eq_packScaled (n : ℤ) : fencInt n = packScaled n 127 := rfl

theorem packScaled_spec (n : ℤ) (c : ℕ) (hn : n.natAbs ≤ 2 ^ 24) (h0 : c ≠ 0) (hc : c + 24 < 255) :
    finite (packScaled n c) = true ∧ fval (packScaled n c) = n * 2 ^ c / 2 ^ 127 := by
  by_cases hz : n = 0
  · subst hz
    exact ⟨by rw [packScaled, if_pos rfl]; decide, by rw [packScaled, if_pos rfl, fval_zero]; simp⟩
  · have ha : n.natAbs ≠ 0 := by omega
    obtain ⟨e1, e2, e3, e4⟩ := int_mantissa n.natAbs ha hn
    rw [packScaled, if_neg hz]
    refine ⟨finite_packF _ _ _ (by omega) (by omega), ?_⟩
    rw [fval_packF _ _ _ (by omega) (by omega) (by omega)]
    have e1' : ((n.natAbs * 2 ^ 23 / 2 ^ n.natAbs.log2 : ℕ) : ℚ) * 2 ^ n.natAbs.log2 =
        (n.natAbs : ℚ) * 2 ^ 23 := by exact_mod_cast e1
    rw [Nat.cast_sub e2, pow_add]
    have hs : (signFactor (decide (n < 0))) * (n.natAbs : ℚ) = n := by
      rw [Nat.cast_natAbs]
      unfold signFactor
      by_cases hneg : n < 0
      · simp [hneg, abs_of_neg hneg]
      · simp [hneg, abs_of_nonneg (not_lt.mp hneg)]
    rw [div_eq_div_iff (by positivity) (by positivity)]
    push_cast
    linear_combination (2 ^ c * 2 ^ 127 * 2 ^ 23 : ℚ) * hs +
      (signFactor (decide (n < 0)) * 2 ^ c * 2 ^ 127) * e1'

/-- The scale `t <= 14` with `M <= 2^(10+t)`, least such. -/
def gridScale (M : ℚ) : ℕ := ((List.range 14).find? fun t => decide (M ≤ 2 ^ (10 + t))).getD 14

theorem gridScale_spec (M : ℚ) (hM : M ≤ 2 ^ 24) :
    gridScale M ≤ 14 ∧ M ≤ 2 ^ (10 + gridScale M) ∧
      (gridScale M = 0 ∨ (2 : ℚ) ^ (9 + gridScale M) < M) := by
  unfold gridScale
  rcases h : (List.range 14).find? fun t => decide (M ≤ 2 ^ (10 + t)) with _ | t
  · simp only [Option.getD_none]
    rw [List.find?_eq_none] at h
    refine ⟨le_rfl, hM, Or.inr ?_⟩
    have := h 13 (by simp)
    simpa using this
  · simp only [Option.getD_some]
    obtain ⟨h1, h2⟩ := List.find?_range_eq_some.mp h
    simp only [decide_eq_true_eq, Bool.not_eq_true', decide_eq_false_iff_not, not_le] at h1 h2
    refine ⟨by have := h2.1; simp at this; omega, h1, ?_⟩
    rcases t with _ | t
    · exact Or.inl rfl
    · right
      have := h2.2 t (by omega)
      rw [show 9 + (t + 1) = 10 + t by ring]
      exact this

/-- The multiple of the grid step `2^t / 2^11` nearest to `A`, limited to `2^24` steps. -/
def gridRound (A : ℚ) (t : ℕ) : ℤ := max (-2 ^ 24) (min (2 ^ 24) ⌊A * 2 ^ 11 / 2 ^ t + 1 / 2⌋)

theorem gridRound_natAbs (A : ℚ) (t : ℕ) : (gridRound A t).natAbs ≤ 2 ^ 24 := by
  have h1 : -2 ^ 24 ≤ gridRound A t := le_max_left _ _
  have h2 : gridRound A t ≤ 2 ^ 24 := max_le (by norm_num) (min_le_left _ _)
  omega

/-- Rounding a good approximation `A` of `E` lands within one grid step of `E`. -/
theorem gridRound_error (A : ℚ) (E : ℝ) (t : ℕ) (hE : |E| ≤ 2 ^ 24 * (2 ^ t / 2 ^ 11))
    (hA : |E - (A : ℝ)| ≤ 2 ^ t / 2 ^ 12) :
    |(gridRound A t : ℝ) * 2 ^ t / 2 ^ 11 - E| ≤ 2 ^ t / 2 ^ 11 := by
  set g : ℝ := 2 ^ t / 2 ^ 11 with hg
  have hgpos : 0 < g := by positivity
  set r : ℤ := ⌊A * 2 ^ 11 / 2 ^ t + 1 / 2⌋ with hr
  have hr1 : (r : ℝ) * g ≤ A + g / 2 := by
    have : (r : ℚ) ≤ A * 2 ^ 11 / 2 ^ t + 1 / 2 := Int.floor_le _
    have : (r : ℝ) ≤ A * 2 ^ 11 / 2 ^ t + 1 / 2 := by
      have := (Rat.cast_le (K := ℝ)).mpr this
      push_cast at this
      exact this
    calc (r : ℝ) * g ≤ (A * 2 ^ 11 / 2 ^ t + 1 / 2) * g := by gcongr
      _ = A + g / 2 := by rw [hg]; field_simp
  have hr2 : A - g / 2 ≤ (r : ℝ) * g := by
    have : A * 2 ^ 11 / 2 ^ t + 1 / 2 < (r : ℚ) + 1 := Int.lt_floor_add_one _
    have : (A : ℝ) * 2 ^ 11 / 2 ^ t + 1 / 2 < (r : ℝ) + 1 := by
      have := (Rat.cast_lt (K := ℝ)).mpr this
      push_cast at this
      exact this
    calc (A : ℝ) - g / 2 = (A * 2 ^ 11 / 2 ^ t + 1 / 2 - 1) * g := by rw [hg]; field_simp; ring
      _ ≤ (r : ℝ) * g := by gcongr; linarith
  have hhalf : (2 : ℝ) ^ t / 2 ^ 12 = g / 2 := by rw [hg]; ring
  rw [hhalf] at hA
  rw [abs_le] at hA hE ⊢
  have key : (gridRound A t : ℝ) * 2 ^ t / 2 ^ 11 = (gridRound A t : ℝ) * g := by rw [hg]; ring
  rw [key]
  have hcast : (gridRound A t : ℝ) = max (-2 ^ 24) (min (2 ^ 24) (r : ℝ)) := by
    rw [gridRound, ← hr]; push_cast; norm_num
  rw [hcast]
  constructor
  · rcases le_total (2 ^ 24 : ℝ) (r : ℝ) with h | h
    · rw [min_eq_left h]
      have : (2 ^ 24 : ℝ) * g ≤ max (-2 ^ 24) (2 ^ 24) * g := by gcongr; exact le_max_right _ _
      linarith
    · rw [min_eq_right h]
      have : (r : ℝ) * g ≤ max (-2 ^ 24) (r : ℝ) * g := by gcongr; exact le_max_right _ _
      linarith
  · rcases le_total (-2 ^ 24 : ℝ) (min (2 ^ 24) (r : ℝ)) with h | h
    · rw [max_eq_right h]
      have : min (2 ^ 24) (r : ℝ) * g ≤ r * g := by gcongr; exact min_le_right _ _
      linarith
    · rw [max_eq_left h]; linarith

/-- The grid step is within the tolerance of R64. -/
theorem grid_le_tol (M : ℚ) (hM : M ≤ 2 ^ 24) : 2 ^ gridScale M / 2 ^ 11 ≤ tol M := by
  obtain ⟨-, -, h | h⟩ := gridScale_spec M hM
  · rw [h]; exact le_trans (by norm_num) (le_max_left _ _)
  · refine le_trans ?_ (le_max_right _ _)
    rw [div_le_div_iff₀ (by positivity) (by positivity)]
    rw [pow_add] at h
    nlinarith

/-- A reference datapath with rational weights `a i`, `b i` for element `i`. -/
def referenceImpl (a b : Elem → Fin 8 → ℚ) (S : FBlock) : FBlock :=
  Vector.ofFn fun i =>
    packScaled (gridRound (sepSum (a i) (b i) fun j => fval S[j]) (gridScale (blockMax S)))
      (116 + gridScale (blockMax S))

theorem referenceImpl_accurate (a b : Elem → Fin 8 → ℝ) (a' b' : Elem → Fin 8 → ℚ)
    (ha : ∀ i m, |a i m - (a' i m : ℝ)| ≤ 1 / 10 ^ 12) (hb : ∀ i m, |b i m - (b' i m : ℝ)| ≤ 1 / 10 ^ 12)
    (ha1 : ∀ i m, |a' i m| ≤ 1 / 2) (hb1 : ∀ i m, |b' i m| ≤ 1 / 2)
    (has : ∀ i, ∑ m, |a i m| ≤ 2 * √2) (hbs : ∀ i, ∑ m, |b i m| ≤ 2 * √2) :
    Accurate (fun X i => sepSum (a i) (b i) X) (referenceImpl a' b') := by
  intro S hS i
  have hM : blockMax S ≤ 2 ^ 24 :=
    (blockMax_le_iff S _).2 ⟨by norm_num, fun j => ((inRange_iff S).1 hS j).2⟩
  obtain ⟨t1, t2, -⟩ := gridScale_spec (blockMax S) hM
  have hget : (referenceImpl a' b' S)[i] = packScaled
      (gridRound (sepSum (a' i) (b' i) fun j => fval S[j]) (gridScale (blockMax S)))
      (116 + gridScale (blockMax S)) := by
    simp [referenceImpl]
  obtain ⟨p1, p2⟩ := packScaled_spec
    (gridRound (sepSum (a' i) (b' i) fun j => fval S[j]) (gridScale (blockMax S)))
    (116 + gridScale (blockMax S)) (gridRound_natAbs _ _) (by omega) (by omega)
  rw [hget]
  refine ⟨p1, ?_⟩
  rw [p2]
  have hX : ∀ j : Elem, |((fval S[j] : ℚ) : ℝ)| ≤ (blockMax S : ℝ) := fun j => by
    exact_mod_cast abs_fval_le_blockMax S j
  have hMr : (blockMax S : ℝ) ≤ 2 ^ (10 + gridScale (blockMax S)) := by exact_mod_cast t2
  have hE : |sepSum (a i) (b i) fun j => ((fval S[j] : ℚ) : ℝ)| ≤
      2 ^ 24 * (2 ^ gridScale (blockMax S) / 2 ^ 11) := by
    refine le_trans (sepSum_gain _ _ _ _ (has i) (hbs i) hX) ?_
    rw [pow_add] at hMr
    linarith
  have hcast : ((sepSum (a' i) (b' i) fun j => fval S[j] : ℚ) : ℝ) =
      sepSum (fun m => (a' i m : ℝ)) (fun m => (b' i m : ℝ)) fun j => ((fval S[j] : ℚ) : ℝ) := by
    simp [sepSum]
  have hA : |(sepSum (a i) (b i) fun j => ((fval S[j] : ℚ) : ℝ)) -
      ((sepSum (a' i) (b' i) fun j => fval S[j] : ℚ) : ℝ)| ≤ 2 ^ gridScale (blockMax S) / 2 ^ 12 := by
    rw [hcast]
    refine le_trans (sepSum_error _ _ _ _ _ _ (ha i) (hb i) ?_ ?_ hX) ?_
    · exact fun m => by
        have := (Rat.cast_le (K := ℝ)).mpr (ha1 i m)
        push_cast at this
        exact this
    · exact fun m => by
        have := (Rat.cast_le (K := ℝ)).mpr (hb1 i m)
        push_cast at this
        exact this
    · rw [pow_add] at hMr
      have h0 : (0 : ℝ) < 2 ^ gridScale (blockMax S) := by positivity
      rw [div_le_div_iff₀ (by positivity) (by positivity)]
      norm_num at hMr ⊢
      linarith
  have hr := gridRound_error _ _ _ hE hA
  have hconv : (((gridRound (sepSum (a' i) (b' i) fun j => fval S[j]) (gridScale (blockMax S)) : ℤ) : ℚ) *
      2 ^ (116 + gridScale (blockMax S)) / 2 ^ 127 : ℚ) =
      ((gridRound (sepSum (a' i) (b' i) fun j => fval S[j]) (gridScale (blockMax S)) : ℤ) : ℚ) *
      2 ^ gridScale (blockMax S) / 2 ^ 11 := by
    rw [pow_add, div_eq_div_iff (by positivity) (by positivity)]; ring
  rw [hconv]
  push_cast
  refine le_trans hr ?_
  have h := (Rat.cast_le (K := ℝ)).mpr (grid_le_tol _ hM)
  push_cast at h
  exact h

/-- The reference forward datapath. -/
def fdctReference : FBlock → FBlock :=
  referenceImpl (fun i => basisApprox (rowOf i)) (fun i => basisApprox (colOf i))

/-- The reference inverse datapath. -/
def idctReference : FBlock → FBlock :=
  referenceImpl (fun i p => basisApprox p (rowOf i)) (fun i q => basisApprox q (colOf i))

theorem fdctReference_accurate : Accurate fdctExact fdctReference := by
  have h : fdctExact = fun X i => sepSum (basis (rowOf i)) (basis (colOf i)) X := by
    funext X i; exact fdctExact_eq_sepSum X i
  rw [h]
  exact referenceImpl_accurate _ _ _ _ (fun i m => basisApprox_error _ m)
    (fun i m => basisApprox_error _ m) (fun i m => basisApprox_half _ m)
    (fun i m => basisApprox_half _ m) (fun i => basis_row_abs_sum _) (fun i => basis_row_abs_sum _)

theorem idctReference_accurate : Accurate idctExact idctReference := by
  have h : idctExact =
      fun X i => sepSum (fun p => basis p (rowOf i)) (fun q => basis q (colOf i)) X := by
    funext X i; exact idctExact_eq_sepSum X i
  rw [h]
  exact referenceImpl_accurate _ _ _ _ (fun i p => basisApprox_error p _)
    (fun i q => basisApprox_error q _) (fun i p => basisApprox_half p _)
    (fun i q => basisApprox_half q _) (fun i => basis_col_abs_sum _) (fun i => basis_col_abs_sum _)

end Sys2Proof.Laws
end

