-- ==== Sys2Proof/Config.lean ====
section
/-! DEFINITION. What an implementation of the engine fixes and the spec leaves open (`00_scope.md` R3;
`10_state.md` R23; `93_implementation_defined.md` U1, U2, U7). The third parameter of R3, the contents of
the zigzag ROM, stands in State as data (log entry 4). -/

namespace Sys2Proof.Config

open Sys2Proof.Machine

/-- A forward transform datapath: any function of the source block that obeys the accuracy contract of
R64. The default only shows that the contract can be met, so that such a thing exists. -/
structure FdctUnit where
  impl : FBlock → FBlock := Laws.fdctReference
  accurate : Accurate fdctExact impl := by exact Laws.fdctReference_accurate
  deriving Inhabited

/-- An inverse transform datapath, likewise (R64). -/
structure IdctUnit where
  impl : FBlock → FBlock := Laws.idctReference
  accurate : Accurate idctExact impl := by exact Laws.idctReference_accurate
  deriving Inhabited

/-- The forward datapath of this hardware: unknown but for its contract (R3, R64, U2). -/
opaque fdctUnit : FdctUnit

/-- The inverse datapath of this hardware: unknown but for its contract (R3, R64, U2). -/
opaque idctUnit : IdctUnit

/-- `fdct_impl` (R64). -/
def fdctImpl (S : FBlock) : FBlock := fdctUnit.impl S

/-- `idct_impl` (R64). -/
def idctImpl (S : FBlock) : FBlock := idctUnit.impl S

/-- All the spec promises of `fdct_impl` (R64). -/
theorem fdctImpl_accurate : Accurate fdctExact fdctImpl := fdctUnit.accurate

/-- All the spec promises of `idct_impl` (R64). -/
theorem idctImpl_accurate : Accurate idctExact idctImpl := idctUnit.accurate

/-- `LAT`: how many host reads of `STATUS` complete between the acceptance of the `n`-th command and its
completion, when the host makes that many; unspecified and finite (R3, R58, U7; log entry 6). -/
opaque latency : Nat → Nat

/-- What the F buffers hold after the hard reset drawn with number `n`: unspecified (R24, U1, U12). -/
opaque powerUpF : Nat → Vector FBlock 2

/-- What the Q buffers hold after the hard reset drawn with number `n`: unspecified (R24, U1, U12). -/
opaque powerUpQ : Nat → Vector QBlock 2

end Sys2Proof.Config
end

