-- ==== Sys2Proof/Machine/Zigzag.lean ====
section
/-! DEFINITION. The zigzag ROM's default contents and the two permutations of the reorderer
(`42_reorder.md` R80 to R86). -/

namespace Sys2Proof.Machine

/-- The default contents of the zigzag ROM, row by row (R82; from general knowledge, log entry 4). -/
def defaultZigzag : ZTable :=
  #v[ 0,  1,  5,  6, 14, 15, 27, 28,
      2,  4,  7, 13, 16, 26, 29, 42,
      3,  8, 12, 17, 25, 30, 41, 43,
      9, 11, 18, 24, 31, 40, 44, 53,
     10, 19, 23, 32, 39, 45, 52, 54,
     20, 22, 33, 38, 46, 51, 55, 60,
     21, 34, 37, 47, 50, 56, 59, 61,
     35, 36, 48, 49, 57, 58, 62, 63]

/-- The inverse of the default table: the row-major index of the `k`-th element of the zigzag order
(R86). The hardware does not store it. -/
def defaultZigzagInverse : ZTable :=
  #v[ 0,  1,  8, 16,  9,  2,  3, 10,
     17, 24, 32, 25, 18, 11,  4,  5,
     12, 19, 26, 33, 40, 48, 41, 34,
     27, 20, 13,  6,  7, 14, 21, 28,
     35, 42, 49, 56, 57, 50, 43, 36,
     29, 22, 15, 23, 30, 37, 44, 51,
     58, 59, 52, 45, 38, 31, 39, 46,
     53, 60, 61, 54, 47, 55, 62, 63]

/-- The contract of the ROM: every value 0..63 occurs exactly once (R14, R80). -/
abbrev ZigzagBijective (zz : ZTable) : Prop := Function.Bijective fun i : Elem => zz[i]

/-- The scatter of ZZF: `T[ZZ[i]] = B[i]` for `i` in 0..63 (R83). The block the loop starts from shows
only under a table that is no bijection, which the ROM cannot hold (R80; log entry 11). -/
def scatter (zz : ZTable) (b : QBlock) : QBlock :=
  (List.finRange 64).foldl (fun t i => t.set (zz[i] : Elem) b[i]) b

/-- The gather of ZZI: `T[i] = B[ZZ[i]]` for `i` in 0..63 (R84). -/
def gather (zz : ZTable) (b : QBlock) : QBlock := Vector.ofFn fun i => b[zz[i]]

end Sys2Proof.Machine
end

