-- ==== Sys2Proof/Machine/State.lean ====
section
/-! DEFINITION. The state of the machine (`10_state.md` sections 1 to 9), the reasons a step can stop, and
the state after reset. -/

namespace Sys2Proof.Machine

/-- Why a step stops. -/
inductive Fault where
  /-- The engine's *complete* step was asked for with `BUSY = 0`, where R58 does not enable it. Raised by
  a meaning called in such a state; `step` never does (safe: there the hardware takes no such step). -/
  | completeNotEnabled
  deriving DecidableEq, Repr

/-- Why a step is refused. -/
inductive Refusal where
  /-- An instruction without a meaning, by its mnemonic. Raised by nothing: every command has a meaning
  (safe). -/
  | notModelled (mnemonic : String)
  deriving DecidableEq, Repr

/-- Everything the spec gives the machine (R10 to R22), and after it the model's own fields. -/
structure State where
  /-- `F[0]`, `F[1]` (R10). -/
  fbuf : Vector FBlock 2
  /-- `Q[0]`, `Q[1]` (R11). -/
  qbuf : Vector QBlock 2
  /-- `QT[0..63]` (R13). -/
  qt : QTable
  /-- `ZZ[0..63]`, the ROM's contents (R14); no step changes them. -/
  zz : ZTable
  /-- `CMD` (R17). -/
  cmd : Word
  /-- `STATUS.BUSY` (R15, R18). -/
  busy : Bool
  /-- `STATUS.FAULT` (R15, R18). -/
  fault : Bool
  /-- `STATUS.QSAT` (R15, R18). -/
  qsat : Bool
  /-- `STATUS.CAUSE` (R19). -/
  cause : BitVec 4
  /-- The model's own: what the host has yet to do at the port, in its program order; the head is the
  transfer it is asking for (R30, R44). -/
  host : List HostEvent
  /-- The model's own: the words the completed host reads returned, the latest first (R41). -/
  reads : List Word
  /-- The model's own: how many more `STATUS` reads can complete before the command in progress does
  (R58, U7). -/
  lat : Nat
  /-- The model's own: how many free values have been drawn. -/
  draws : Nat
  deriving DecidableEq, Repr

/-- The state right after a hard reset (the "after hard reset" column of R24; R120). The buffers, which
R24 leaves unspecified, are zero here by log entries 2 and 3. -/
def State.reset : State where
  fbuf := Vector.replicate 2 (Vector.replicate 64 0)
  qbuf := Vector.replicate 2 (Vector.replicate 64 0)
  qt := Vector.replicate 64 0
  zz := defaultZigzag
  cmd := 0
  busy := false
  fault := false
  qsat := false
  cause := 0
  host := []
  reads := []
  lat := 0
  draws := 0

end Sys2Proof.Machine
end

