-- ==== Sys2Proof/Machine/Flags.lean ====
section
/-! DEFINITION. The flags and the `STATUS` word (`10_state.md` R15, R18, R19; `60_exceptions.md` R101). -/

namespace Sys2Proof.Machine

/-- The causes of a fault: exactly four (R101; `93_implementation_defined.md` U11). -/
inductive Cause where
  /-- The word matches no row of the opcode table. -/
  | illegalCmd
  /-- Some element of the source F buffer is an infinity or a NaN. -/
  | operandNonfinite
  /-- Every element is finite and some magnitude is above `2^24`. -/
  | operandRange
  /-- Some `QT[i]` is 0. -/
  | zeroDivisor
  deriving DecidableEq, Repr

/-- The code recorded in `STATUS.CAUSE` (R19, R101). -/
def Cause.code : Cause → BitVec 4
  | .illegalCmd => 1
  | .operandNonfinite => 2
  | .operandRange => 3
  | .zeroDivisor => 4

/-- The word a read of `STATUS` returns: `{24'b0, CAUSE[3:0], 1'b0, QSAT, FAULT, BUSY}` (R18, R41). -/
def State.statusWord (s : State) : Word :=
  0#24 ++ s.cause ++ 0#1 ++ BitVec.ofBool s.qsat ++ BitVec.ofBool s.fault ++ BitVec.ofBool s.busy

end Sys2Proof.Machine
end

