-- ==== Sys2Proof/Machine/Operands.lean ====
section
/-! DEFINITION. The operands of the commands: the blocks they read, the checks on them, and the values an
operand gives (`30_encoding.md` R51; `40_transform.md` R67; `41_quantize.md` R70, R71, R74 to R76). -/

namespace Sys2Proof.Machine

/-- The whole source block `F[n]`. -/
def State.readF (s : State) (n : BufIdx) : FBlock := s.fbuf[n]

/-- The whole source block `Q[n]`. -/
def State.readQ (s : State) (n : BufIdx) : QBlock := s.qbuf[n]

/-- Every element of a block is finite. -/
def allFinite (S : FBlock) : Bool := (List.finRange 64).all fun i => finite S[i]

/-- Some element of a block has magnitude above `2^24`. -/
def anyOverRange (S : FBlock) : Bool := (List.finRange 64).any fun i => overRange S[i]

/-- Some divisor is 0 (R76). -/
def anyZeroDivisor (T : QTable) : Bool := (List.finRange 64).any fun i => T[i] == 0

/-- `check_transform(S)`: the operand check of FDCT and IDCT, the finiteness test first (R67, R103). -/
def checkTransform (S : FBlock) : Option Cause :=
  if allFinite S = false then some .operandNonfinite
  else if anyOverRange S then some .operandRange
  else none

/-- The checks of QUANT, the operand test first (R71, R103). -/
def checkQuant (S : FBlock) (T : QTable) : Option Cause :=
  if allFinite S = false then some .operandNonfinite
  else if anyZeroDivisor T then some .zeroDivisor
  else none

/-- The check of DEQUANT (R75, R76). -/
def checkDequant (T : QTable) : Option Cause :=
  if anyZeroDivisor T then some .zeroDivisor else none

/-- The exact quotient of a coefficient and a divisor, rounded: `rha(c / d)` (R70). -/
def quotient (c : ℚ) (d : Divisor) : Int := rha (c / d.toNat)

/-- `quant(c, d) = clamp8(rha(c / d))` (R70). -/
def quant (c : ℚ) (d : Divisor) : Int := clamp8 (quotient c d)

/-- `dequant(q, d) = q * d` (R74). -/
def dequant (q : Int) (d : Divisor) : Int := q * d.toNat

/-- The Quantized Block of a source block and a table (R71). -/
def quantBlock (S : FBlock) (T : QTable) : QBlock :=
  Vector.ofFn fun i => enc8 (quant (fval S[i]) T[i])

/-- Whether QUANT clamps an element: some `clamp8(r_i) != r_i` (R71, R73). -/
def quantClamps (S : FBlock) (T : QTable) : Bool :=
  (List.finRange 64).any fun i => quant (fval S[i]) T[i] != quotient (fval S[i]) T[i]

/-- The dequantized block of a source block and a table (R75). -/
def dequantBlock (B : QBlock) (T : QTable) : FBlock :=
  Vector.ofFn fun i => fencInt (dequant (sint8 B[i]) T[i])

end Sys2Proof.Machine
end

