-- ==== Sys2Proof/Machine/Ops.lean ====
section
/-! DEFINITION. The operations the meanings share: writing a destination block, ending a command, taking a
fault and leaving it (`30_encoding.md` R58; `60_exceptions.md` R104, R107; `43_system_and_host.md` R90, R91;
`70_reset_and_hazards.md` R120, R121). -/

namespace Sys2Proof.Machine

/-- `F[n] <- B`: all 64 elements. -/
def State.writeF (s : State) (n : BufIdx) (B : FBlock) : State := { s with fbuf := s.fbuf.set n B }

/-- `Q[n] <- B`: all 64 elements. -/
def State.writeQ (s : State) (n : BufIdx) (B : QBlock) : State := { s with qbuf := s.qbuf.set n B }

/-- `QSAT <- QSAT or sat` (R58, R73). -/
def State.orSat (s : State) (sat : Bool) : State := { s with qsat := s.qsat || sat }

/-- `BUSY <- 0`: the end of a command (R58). -/
def State.finish (s : State) : State := { s with busy := false }

/-- `raise Fault(cause)`: the one fault entry of the engine (R104). -/
def State.raiseFault (s : State) (c : Cause) : State :=
  { s with fault := true, cause := c.code, busy := false }

/-- `SoftReset()`: leaving the faulted state (R90, R107). -/
def State.softReset (s : State) : State :=
  { s with fault := false, cause := 0, qsat := false, cmd := 0 }

/-- CLRSAT (R91). -/
def State.clrSat (s : State) : State := { s with qsat := false }

/-- Acceptance of a command word: `CMD <- w ; BUSY <- 1` (R42, R58). The latency of this command is
drawn here (log entry 6). -/
def State.accept (s : State) (w : Word) : State :=
  { s with cmd := w, busy := true, lat := Config.latency s.draws, draws := s.draws + 1 }

/-- A hard reset: the "after hard reset" column of R24, whatever was in progress (R120, R121). The
buffers' contents are free values (log entry 8). -/
def State.hardReset (s : State) : State :=
  { s with
    fbuf := Config.powerUpF s.draws
    qbuf := Config.powerUpQ s.draws
    qt := Vector.replicate 64 0
    cmd := 0
    busy := false
    fault := false
    qsat := false
    cause := 0
    lat := 0
    draws := s.draws + 1 }

/-- The *complete* step of R58 for a command whose checks and result are `r`: with `BUSY = 1`, either the
fault is raised or `k` of the result is done and `BUSY` is cleared; with `BUSY = 0` it is not enabled
(log entry 12). -/
def State.completeWith {α : Type} (s : State) (r : Except Cause α) (k : State → α → State) :
    Host.Outcome State Fault Refusal :=
  if s.busy then
    match r with
    | .error c => .next (s.raiseFault c)
    | .ok x => .next (k s x).finish
  else .fault .completeNotEnabled

/-- The result of a command's checks: a cause, or the value. -/
def checked {α : Type} (c : Option Cause) (x : α) : Except Cause α :=
  match c with
  | some c => .error c
  | none => .ok x

end Sys2Proof.Machine
end

