-- ==== Sys2Proof/Machine/Quantize.lean ====
section
/-! DEFINITION. The quantizer and dequantizer commands QUANT and DEQUANT (`41_quantize.md` R71, R75). -/

namespace Sys2Proof.Machine

/-- `QUANT Qd, Fs` (R71): the quantized block to `Q[DST]`, and `QSAT` set if an element was clamped
(R73). -/
def execQuant (dst src : BufIdx) (s : State) : Host.Outcome State Fault Refusal :=
  s.completeWith
    (checked (checkQuant (s.readF src) s.qt)
      (quantBlock (s.readF src) s.qt, quantClamps (s.readF src) s.qt))
    fun t R => (t.writeQ dst R.1).orSat R.2

/-- `DEQUANT Fd, Qs` (R75): the exact products, as binary32 integers, to `F[DST]`. -/
def execDequant (dst src : BufIdx) (s : State) : Host.Outcome State Fault Refusal :=
  s.completeWith (checked (checkDequant s.qt) (dequantBlock (s.readQ src) s.qt))
    fun t R => t.writeF dst R

end Sys2Proof.Machine
end

