-- ==== Sys2Proof/Machine/Reorder.lean ====
section
/-! DEFINITION. The reorder commands ZZF and ZZI (`42_reorder.md` R83, R84): no check, no flag. -/

namespace Sys2Proof.Machine

/-- `ZZF Qd, Qs` (R83): the scatter of `Q[SRC]` to `Q[DST]`. -/
def execZzf (dst src : BufIdx) (s : State) : Host.Outcome State Fault Refusal :=
  s.completeWith (.ok (scatter s.zz (s.readQ src))) fun t R => t.writeQ dst R

/-- `ZZI Qd, Qs` (R84): the gather of `Q[SRC]` to `Q[DST]`. -/
def execZzi (dst src : BufIdx) (s : State) : Host.Outcome State Fault Refusal :=
  s.completeWith (.ok (gather s.zz (s.readQ src))) fun t R => t.writeQ dst R

end Sys2Proof.Machine
end

