-- ==== Sys2Proof/Machine/Transform.lean ====
section
/-! DEFINITION. The transform commands FDCT and IDCT (`40_transform.md` R62, R65). -/

namespace Sys2Proof.Machine

/-- `FDCT Fd, Fs` (R62): the source block is checked (R67) and `F[DST] <- fdct_impl(S)` (R64). -/
def execFdct (dst src : BufIdx) (s : State) : Host.Outcome State Fault Refusal :=
  s.completeWith (checked (checkTransform (s.readF src)) (Config.fdctImpl (s.readF src)))
    fun t R => t.writeF dst R

/-- `IDCT Fd, Fs` (R65): the source block is checked (R67) and `F[DST] <- idct_impl(S)` (R64). -/
def execIdct (dst src : BufIdx) (s : State) : Host.Outcome State Fault Refusal :=
  s.completeWith (checked (checkTransform (s.readF src)) (Config.idctImpl (s.readF src)))
    fun t R => t.writeF dst R

end Sys2Proof.Machine
end

