-- ==== Sys2Proof/Machine/Dispatch.lean ====
section
/-! DEFINITION. One arm per command: the *complete* step of `30_encoding.md` R58 after decoding. -/

namespace Sys2Proof.Machine

def exec (i : Instr) (s : State) : Host.Outcome State Fault Refusal :=
  match i with
  | .fdct dst src => Sys2Proof.Machine.execFdct dst src s
  | .idct dst src => Sys2Proof.Machine.execIdct dst src s
  | .quant dst src => Sys2Proof.Machine.execQuant dst src s
  | .dequant dst src => Sys2Proof.Machine.execDequant dst src s
  | .zzf dst src => Sys2Proof.Machine.execZzf dst src s
  | .zzi dst src => Sys2Proof.Machine.execZzi dst src s

end Sys2Proof.Machine
end

