-- ==== Sys2Proof/Machine/Complete.lean ====
section
/-! DEFINITION. The engine's one step, *complete* (`30_encoding.md` R53, R58). -/

namespace Sys2Proof.Machine

/-- The command in `CMD` is decoded and performed; an illegal word raises `ILLEGAL_CMD` (R53, R58). -/
def complete (s : State) : Host.Outcome State Fault Refusal :=
  match decode s.cmd with
  | .ok i => exec i s
  | .error _ => s.completeWith (.error .illegalCmd) fun t (_ : Unit) => t

end Sys2Proof.Machine
end

