-- ==== Sys2Proof/Machine/HostPort.lean ====
section
/-! DEFINITION. The host port: the address map, the two transfer primitives and what each thing the host
can do does (`20_memory.md` R32 to R36, R39, R41 to R43; `43_system_and_host.md` R90 to R92, R96). -/

namespace Sys2Proof.Machine

/-- The map of the host window (R32). -/
def locate (a : WordAddr) : Location :=
  let n := a.toNat
  if n = 0x000 then .cmd
  else if n = 0x001 then .status
  else if n = 0x002 then .ctrl
  else if 0x040 ≤ n ∧ n ≤ 0x07F then .qt (Fin.ofNat 64 (n - 0x040))
  else if 0x080 ≤ n ∧ n ≤ 0x0BF then .zz (Fin.ofNat 64 (n - 0x080))
  else if 0x100 ≤ n ∧ n ≤ 0x17F then .f (Fin.ofNat 2 ((n - 0x100) / 64)) (Fin.ofNat 64 ((n - 0x100) % 64))
  else if 0x200 ≤ n ∧ n ≤ 0x21F then .q (Fin.ofNat 2 ((n - 0x200) / 16)) (Fin.ofNat 16 ((n - 0x200) % 16))
  else .reserved

/-- The element `4k + j` of a Q buffer: byte `j` of its word `k` (R36). -/
def qElem (k : Fin 16) (j : Fin 4) : Elem := ⟨4 * k.val + j.val, by omega⟩

/-- Word `k` of a Q buffer, the lowest index in the lowest byte (R36). -/
def packQ (B : QBlock) (k : Fin 16) : Word :=
  B[qElem k 3] ++ B[qElem k 2] ++ B[qElem k 1] ++ B[qElem k 0]

/-- `Q[n][4k+j] <- w[8j+7:8j]` for `j` in 0..3 (R36). -/
def unpackQ (B : QBlock) (k : Fin 16) (w : Word) : QBlock :=
  (((B.set (qElem k 0) (w.extractLsb' 0 8)).set (qElem k 1) (w.extractLsb' 8 8)).set
    (qElem k 2) (w.extractLsb' 16 8)).set (qElem k 3) (w.extractLsb' 24 8)

/-- `HostRead(a)`: the word a completed read returns (R41). -/
def State.hostRead (s : State) (a : WordAddr) : Word :=
  match locate a with
  | .cmd => s.cmd
  | .status => s.statusWord
  | .ctrl => 0
  | .qt i => s.qt[i].zeroExtend 32
  | .zz i => BitVec.ofNat 32 s.zz[i].val
  | .f n i => (s.readF n)[i]
  | .q n k => packQ (s.readQ n) k
  | .reserved => 0

/-- A write to `CTRL` (R20, R90 to R92). -/
def State.writeCtrl (s : State) (w : Word) : State :=
  if w.getLsbD 0 then s.softReset
  else if w.getLsbD 1 then s.clrSat
  else s

/-- A write to `CMD`: accepted with `FAULT = 0`, dropped with `FAULT = 1` (R42, R106). -/
def State.writeCmd (s : State) (w : Word) : State := if s.fault then s else s.accept w

/-- `HostWrite(a, w)`: what a write does when it completes (R42). -/
def State.hostWrite (s : State) (a : WordAddr) (w : Word) : State :=
  match locate a with
  | .cmd => s.writeCmd w
  | .status => s
  | .ctrl => s.writeCtrl w
  | .qt i => { s with qt := s.qt.set i (w.extractLsb' 0 16) }
  | .zz _ => s
  | .f n i => s.writeF n ((s.readF n).set i w)
  | .q n k => s.writeQ n (unpackQ (s.readQ n) k w)
  | .reserved => s

/-- The word address of `STATUS` (R32). -/
def statusAddr : WordAddr := 0x001

/-- A transfer that completes even while `BUSY = 1`: a read of `STATUS`, which a `WAIT` makes too (R43,
R96). -/
def isStatusRead : HostEvent → Bool
  | .read a => locate a = .status
  | .write _ _ => false
  | .wait => true
  | .hardReset => false

/-- A completed read: its word is returned, nothing else changes (R40, R41); one that completes while a
command is in progress uses up one of the reads its latency leaves (log entry 6). -/
def State.noteRead (s : State) (w : Word) : State :=
  { s with reads := w :: s.reads, lat := if s.busy then s.lat - 1 else s.lat }

/-- What completing the host's next event does, `rest` being what the host does after it. -/
def State.perform (s : State) (e : HostEvent) (rest : List HostEvent) : State :=
  match e with
  | .read a => { s.noteRead (s.hostRead a) with host := rest }
  | .write a w => { s.hostWrite a w with host := rest }
  | .wait => { s.noteRead (s.hostRead statusAddr) with host := if s.busy then .wait :: rest else rest }
  | .hardReset => { s.hardReset with host := rest }

end Sys2Proof.Machine
end

