-- ==== Sys2Proof/Machine/Schedule.lean ====
section
/-! DEFINITION. Which of the two agents moves next (`00_scope.md` R9; `20_memory.md` R43, R44;
`30_encoding.md` R58; `70_reset_and_hazards.md` R120, R121; log entries 6 and 7). -/

namespace Sys2Proof.Machine

/-- The next move of the machine. -/
inductive Move where
  /-- Nothing is enabled: `BUSY = 0` and the host asks for nothing (R113, R125). -/
  | idle
  /-- The engine's *complete* step (R58). -/
  | engine
  /-- The host's event `e` completes, and `rest` is what the host does after it. -/
  | host (e : HostEvent) (rest : List HostEvent)
  deriving DecidableEq, Repr

/-- With `BUSY = 0` the host's next event completes. With `BUSY = 1` a read of `STATUS` completes, or
`rst_n` cuts the command short, as long as the command's latency lasts; every other transfer is held, and
the engine completes the command (R43). A held transfer is abandoned if `rst_n` is asserted next (R121). -/
def State.nextMove (s : State) : Move :=
  match s.host with
  | [] => if s.busy then .engine else .idle
  | e :: rest =>
    if s.busy = false then .host e rest
    else if s.lat = 0 then .engine
    else if isStatusRead e then .host e rest
    else if e = .hardReset then .host e rest
    else
      match rest with
      | .hardReset :: rest' => .host .hardReset rest'
      | _ => .engine

end Sys2Proof.Machine
end

