-- ==== Sys2Proof/Machine/Step.lean ====
section
/-! DEFINITION. One step of the machine: one host transfer, or one engine step, in one total order
(`20_memory.md` R44). -/

namespace Sys2Proof.Machine

/-- The step. An idle engine keeps all of its state (R113). -/
def step (s : State) : Host.Outcome State Fault Refusal :=
  match s.nextMove with
  | .idle => .next s
  | .engine => complete s
  | .host e rest => .next (s.perform e rest)

/-- The state in which the command word `w` (its low `nbits` bits) has just been accepted and the very
next step completes it: it stands in `CMD` with `BUSY = 1` and so `FAULT = 0` (R25), no `STATUS` read can
come first, and the host asks for nothing (log entries 9 and 10). -/
def State.withFetchWord (s : State) (nbits w : Nat) : State :=
  { s with
    cmd := BitVec.ofNat 32 (w % 2 ^ nbits)
    busy := true
    fault := false
    cause := 0
    lat := 0
    host := [] }

end Sys2Proof.Machine
end

