-- ==== Sys2Proof/Machine/Assembler.lean ====
section
/-! DEFINITION. The assembler: what a line of a host program is in host transfers (`30_encoding.md` R55,
R56, R57). -/

namespace Sys2Proof.Machine

/-- The command a well-formed command line names; any other line is a syntax error (R51, R55). -/
def asmInstr (c : AsmCommand) : Option Instr :=
  match c.mnemonic, c.dst, c.src with
  | .fdct, .f d, .f s => some (.fdct d s)
  | .idct, .f d, .f s => some (.idct d s)
  | .quant, .q d, .f s => some (.quant d s)
  | .dequant, .f d, .q s => some (.dequant d s)
  | .zzf, .q d, .q s => some (.zzf d s)
  | .zzi, .q d, .q s => some (.zzi d s)
  | _, _, _ => none

/-- A command assembles to `HostWrite(0x000, OP + 16*SRC + 256*DST)` (R55). -/
def commandWrite (i : Instr) : HostEvent := .write 0x000 (encode i)

/-- `FDCT F1, F0` ; `QUANT Q0, F1` ; `ZZF Q1, Q0` (R56). -/
def encBlk : List Instr := [.fdct 1 0, .quant 0 1, .zzf 1 0]

/-- `ZZI Q1, Q0` ; `DEQUANT F0, Q1` ; `IDCT F1, F0` (R56). -/
def decBlk : List Instr := [.zzi 1 0, .dequant 0 1, .idct 1 0]

/-- The host transfers of a line, none for a syntax error (R55 to R57). -/
def assemble (l : HostLine) : Option (List HostEvent) :=
  match l with
  | .command c => (asmInstr c).map fun i => [commandWrite i]
  | .encblk => some (encBlk.map commandWrite)
  | .decblk => some (decBlk.map commandWrite)
  | .wr a w => some [.write a w]
  | .rd a => some [.read a]
  | .wait => some [.wait]
  | .srst => some [.write 0x002 0x1]
  | .clrsat => some [.write 0x002 0x2]
  | .ldqt v => some ((List.finRange 64).map fun i => .write (BitVec.ofNat 10 (0x040 + i.val)) v[i])
  | .ldf n x =>
    some ((List.finRange 64).map fun i => .write (BitVec.ofNat 10 (0x100 + 64 * n.val + i.val)) x[i])
  | .ldq n b =>
    some ((List.finRange 16).map fun k => .write (BitVec.ofNat 10 (0x200 + 16 * n.val + k.val)) (packQ b k))

/-- The host transfers of a program, line after line. -/
def assembleAll (ls : List HostLine) : Option (List HostEvent) :=
  (ls.mapM assemble).map List.flatten

end Sys2Proof.Machine
end

