-- ==== Sys2Proof/Safety.lean ====
section
/-! DEFINITION. What the claims mean by a good state and a good run (`10_state.md` R25; `70_reset_and_hazards.md`
R125). -/

namespace Sys2Proof.Machine

/-- The state invariant of R25, items 1, 2 and 4 (its item 3 is about every `STATUS` word, and
`QT[i] < 2^16` is the entry's type). -/
structure State.Inv (s : State) : Prop where
  /-- Item 1: `BUSY = 1` implies `FAULT = 0`. -/
  busy_not_fault : s.busy = true → s.fault = false
  /-- Item 2: `CAUSE = 0` exactly when `FAULT = 0`. -/
  cause_zero_iff : s.cause = 0 ↔ s.fault = false
  /-- Item 2: `CAUSE` is at most 4. -/
  cause_le : s.cause.toNat ≤ 4
  /-- Item 4: `ZZ` is a bijection on {0..63}. -/
  zigzag : ZigzagBijective s.zz

/-- A run has ended: the host has no transfer left and `BUSY = 0` (R125). -/
def State.Ended (s : State) : Prop := s.host = [] ∧ s.busy = false

/-- A safe run, in the terms the claims use: it has ended and no command of it faulted (R125). -/
def State.Succeeded (s : State) : Prop := s.Ended ∧ s.fault = false

/-- The command's destination is an F buffer; else it is a Q buffer (the tables of R12 and R51). -/
def writesF : Instr → Bool
  | .fdct _ _ => true
  | .idct _ _ => true
  | .quant _ _ => false
  | .dequant _ _ => true
  | .zzf _ _ => false
  | .zzi _ _ => false

/-- Some element of `F[n]` is an infinity or a NaN. -/
def State.HasNonfinite (s : State) (n : BufIdx) : Prop := ∃ j : Elem, finite s.fbuf[n][j] = false

/-- Every element of `F[n]` is finite and some magnitude is above `2^24`. -/
def State.HasOverRange (s : State) (n : BufIdx) : Prop :=
  (∀ j : Elem, finite s.fbuf[n][j] = true) ∧ ∃ j : Elem, 2 ^ 24 < |fval s.fbuf[n][j]|

/-- Some `QT[i]` is 0. -/
def State.HasZeroDivisor (s : State) : Prop := ∃ j : Elem, s.qt[j] = 0

/-- The condition under which a command has a cause to fault (the table of R101). -/
def FaultCondition (i : Instr) (s : State) (c : Cause) : Prop :=
  match i, c with
  | .fdct _ n, .operandNonfinite => s.HasNonfinite n
  | .fdct _ n, .operandRange => s.HasOverRange n
  | .idct _ n, .operandNonfinite => s.HasNonfinite n
  | .idct _ n, .operandRange => s.HasOverRange n
  | .quant _ n, .operandNonfinite => s.HasNonfinite n
  | .quant _ _, .zeroDivisor => s.HasZeroDivisor
  | .dequant _ _, .zeroDivisor => s.HasZeroDivisor
  | _, _ => False

/-- Which command can raise which cause (the table of R102). -/
def mayRaise (i : Instr) (c : Cause) : Bool :=
  match i, c with
  | .fdct _ _, .operandNonfinite => true
  | .fdct _ _, .operandRange => true
  | .idct _ _, .operandNonfinite => true
  | .idct _ _, .operandRange => true
  | .quant _ _, .operandNonfinite => true
  | .quant _ _, .zeroDivisor => true
  | .dequant _ _, .zeroDivisor => true
  | _, _ => false

end Sys2Proof.Machine
end

