-- ==== Sys2Proof/Certificates/Slice0/Obligations.lean ====
section
/-! DEFINITION. The statements for the provers. Each docstring names the rule of `spec/` it formalises. -/

open Sys2Proof Sys2Proof.Machine

/-! ### Encoding -/

/-- `95_test_vectors.md` section 2.1: words read against the opcode map of R52, legal and illegal. -/
def Obligations.DecodeSpecWords : Prop :=
  decode 0x00000101 = .ok (.fdct 1 0) ∧ decode 0x00000112 = .ok (.idct 1 1) ∧
  decode 0x00000013 = .ok (.quant 0 1) ∧ decode 0x00000113 = .ok (.quant 1 1) ∧
  decode 0x00000014 = .ok (.dequant 0 1) ∧ decode 0x00000105 = .ok (.zzf 1 0) ∧
  decode 0x00000016 = .ok (.zzi 0 1) ∧
  decode 0x00000000 = .error .opZero ∧ decode 0x00000110 = .error .opZero ∧
  decode 0x00000007 = .error .opUnused ∧ decode 0x0000000F = .error .opUnused ∧
  decode 0x00000021 = .error .rz1NotZero ∧ decode 0x00000081 = .error .rz1NotZero ∧
  decode 0x00000201 = .error .rz2NotZero ∧ decode 0x80000001 = .error .rz2NotZero

/-- Decoding and encoding agree in both directions (R50 to R53): a word decodes to a command exactly when
it is that command's word. -/
def Obligations.DecodeEncodeAgree : Prop :=
  ∀ (w : Word) (i : Instr), decode w = .ok i ↔ encode i = w

/-- R52: the rows' masks and matches, the operand fields, and the four encodings of each command. -/
def Obligations.DecodeFollowsMaskAndMatch : Prop :=
  (∀ w : Word,
    ((∃ d s, decode w = .ok (.fdct d s)) ↔ w &&& 0xFFFFFEEF = 0x00000001) ∧
    ((∃ d s, decode w = .ok (.idct d s)) ↔ w &&& 0xFFFFFEEF = 0x00000002) ∧
    ((∃ d s, decode w = .ok (.quant d s)) ↔ w &&& 0xFFFFFEEF = 0x00000003) ∧
    ((∃ d s, decode w = .ok (.dequant d s)) ↔ w &&& 0xFFFFFEEF = 0x00000004) ∧
    ((∃ d s, decode w = .ok (.zzf d s)) ↔ w &&& 0xFFFFFEEF = 0x00000005) ∧
    ((∃ d s, decode w = .ok (.zzi d s)) ↔ w &&& 0xFFFFFEEF = 0x00000006) ∧
    ∀ i, decode w = .ok i → w.extractLsb' 4 1 = BitVec.ofNat 1 i.src.val ∧
      w.extractLsb' 8 1 = BitVec.ofNat 1 i.dst.val) ∧
  Function.Injective encode ∧
  encode (.fdct 0 0) = 0x001 ∧ encode (.fdct 0 1) = 0x011 ∧ encode (.fdct 1 0) = 0x101 ∧
  encode (.fdct 1 1) = 0x111

/-- R53: which words are illegal, and what becomes of one written to `CMD` with `FAULT = 0`: accepted like
any other, then ended with `ILLEGAL_CMD`, and still readable from `CMD`. -/
def Obligations.IllegalWordsFault : Prop :=
  ∀ w : Word,
    ((∃ e, decode w = .error e) ↔
      w.extractLsb' 0 4 = 0 ∨ 7 ≤ (w.extractLsb' 0 4).toNat ∨ w.extractLsb' 5 3 ≠ 0 ∨
        w.extractLsb' 9 23 ≠ 0) ∧
    ∀ s t : State, s.busy = false → s.fault = false → t = s.hostWrite 0x000 w →
      t = { s with cmd := w, busy := true, lat := t.lat, draws := t.draws } ∧
      ((∃ e, decode w = .error e) →
        ∃ u, complete t = .next u ∧ u = { t with fault := true, cause := 1, busy := false } ∧
          u.hostRead 0x000 = w)

/-! ### The step -/

/-- R58: a step in which the engine moves is its *complete* step on the word in `CMD`, and nothing is added
around it: the decoded command's `exec`, or the fault of an illegal word (R53, R104). The engine moves when
the host asks for nothing, when the latency is over, or when what the host asks for is held and no reset
cuts in (R43, R121). Counting the latency by `s.lat` is the model's choice (log entry 6), and so is where a
reset cuts in (log entry 7). -/
def Obligations.EngineStepRunsDecodedCommand : Prop :=
  ∀ s : State, s.busy = true →
    (s.host = [] ∨ s.lat = 0 ∨
      ∃ e rest, s.host = e :: rest ∧ e ≠ .read 0x001 ∧ e ≠ .wait ∧ e ≠ .hardReset ∧
        ∀ rest', rest ≠ .hardReset :: rest') →
    step s = complete s ∧
    (∀ i : Instr, decode s.cmd = .ok i → step s = exec i s) ∧
    ∀ e : DecodeError, decode s.cmd = .error e →
      step s = .next { s with fault := true, cause := 1, busy := false }

/-- R58: *completion* "is enabled exactly when `BUSY = 1`": with `BUSY = 0` a command's meaning stops (the
name of the stop is the model's, log entry 12), with `BUSY = 1` it goes on. -/
def Obligations.CompleteEnabledExactlyWhenBusy : Prop :=
  ∀ (i : Instr) (s : State),
    (s.busy = false → exec i s = .fault .completeNotEnabled) ∧
    (s.busy = true → ∃ t, exec i s = .next t ∧ t.busy = false)

/-- R58, R43: no state stops the machine. -/
def Obligations.EveryStepGoesOn : Prop := ∀ s : State, ∃ t, step s = .next t

/-- R125, R43, R58: every run ends. From any state, whatever the host has yet to do, some number of steps
performs all of it and leaves the engine idle. This rests on the model's latency being a number, and so
finite (log entry 6), which is its form of R58's weak fairness. -/
def Obligations.EveryRunEnds : Prop :=
  ∀ s : State, ∃ (k : Nat) (t : State),
    Host.Core.run Sys2Proof.core k s = .next t ∧ t.host = [] ∧ t.busy = false

/-- R25, with item 3 for the `STATUS` word: the invariant holds after reset and every step keeps it, from
every state that meets it. -/
def Obligations.StepKeepsInvariant : Prop :=
  State.reset.Inv ∧
  (∀ s t : State, s.Inv → step s = .next t → t.Inv) ∧
  ∀ s : State, s.statusWord.getLsbD 3 = false ∧ s.statusWord.extractLsb' 8 24 = 0 ∧
    ∀ i : Elem, s.qt[i].toNat < 2 ^ 16

/-- R25 with the values of R24: the reset state meets the invariant, and the fields the invariant is about
are `BUSY = 0`, `FAULT = 0`, `CAUSE = 0` and a ROM that holds the default table. That table is presumed (log
entry 4). -/
def Obligations.ResetMeetsInvariant : Prop :=
  State.reset.busy = false ∧ State.reset.fault = false ∧ State.reset.cause = 0 ∧
  State.reset.zz = defaultZigzag ∧ State.reset.Inv

/-- R24: the two columns of the table of reset values, and that an idle engine at whose port `rst_n` is
asserted takes the first (R120). The buffers after a hard reset are unspecified, and nothing is said of
them. -/
def Obligations.ResetColumns : Prop :=
  (∀ s : State,
    (∀ i : Elem, s.hardReset.qt[i] = 0) ∧ s.hardReset.zz = s.zz ∧ s.hardReset.cmd = 0 ∧
    s.hardReset.busy = false ∧ s.hardReset.fault = false ∧ s.hardReset.qsat = false ∧
    s.hardReset.cause = 0 ∧
    s.softReset = { s with cmd := 0, fault := false, qsat := false, cause := 0 }) ∧
  (∀ (s : State) (rest : List HostEvent), s.busy = false → s.host = .hardReset :: rest →
    step s = .next { s.hardReset with host := rest }) ∧
  (∀ i : Elem, State.reset.qt[i] = 0) ∧ State.reset.cmd = 0 ∧ State.reset.busy = false ∧
  State.reset.fault = false ∧ State.reset.qsat = false ∧ State.reset.cause = 0

/-! ### The commands -/

/-- R62, R65, R67: on a source block that passes the operand check, FDCT and IDCT complete, write the
datapath's block to `F[DST]`, clear `BUSY` and change nothing else. -/
def Obligations.TransformsComplete : Prop :=
  ∀ (d n : BufIdx) (s : State), s.busy = true →
    (∀ j : Elem, finite s.fbuf[n][j] = true ∧ |fval s.fbuf[n][j]| ≤ 2 ^ 24) →
    exec (.fdct d n) s =
      .next { s with fbuf := s.fbuf.set d (Config.fdctImpl s.fbuf[n]), busy := false } ∧
    exec (.idct d n) s =
      .next { s with fbuf := s.fbuf.set d (Config.idctImpl s.fbuf[n]), busy := false }

/-- R64: the result of each transform is a function of the source block alone, and for every source block
that passes the check, with `M` its largest magnitude, every result element is finite and within
`max(1/1000, M/2^20)` of the exact real result. -/
def Obligations.TransformAccuracy : Prop :=
  ∃ fd id : FBlock → FBlock,
    (∀ (S : FBlock) (M : ℚ), (∀ j : Elem, finite S[j] = true ∧ |fval S[j]| ≤ 2 ^ 24) →
      (∀ j : Elem, |fval S[j]| ≤ M) → (∃ j : Elem, |fval S[j]| = M) →
      ∀ i : Elem,
        (finite (fd S)[i] = true ∧
          |(fval (fd S)[i] : ℝ) - fdctExact (fun j => (fval S[j] : ℝ)) i| ≤
            ((max (1 / 1000) (M / 2 ^ 20) : ℚ) : ℝ)) ∧
        (finite (id S)[i] = true ∧
          |(fval (id S)[i] : ℝ) - idctExact (fun j => (fval S[j] : ℝ)) i| ≤
            ((max (1 / 1000) (M / 2 ^ 20) : ℚ) : ℝ))) ∧
    ∀ (d n : BufIdx) (s : State), s.busy = true →
      (∀ j : Elem, finite s.fbuf[n][j] = true ∧ |fval s.fbuf[n][j]| ≤ 2 ^ 24) →
      (∃ t, exec (.fdct d n) s = .next t ∧ t.fbuf[d] = fd s.fbuf[n]) ∧
      ∃ t, exec (.idct d n) s = .next t ∧ t.fbuf[d] = id s.fbuf[n]

/-- R67: the operand check of FDCT and IDCT: which blocks pass, which cause the others raise, what the
two tests are in terms of the pattern, and that every block DEQUANT can produce passes. -/
def Obligations.OperandCheck : Prop :=
  (∀ (d n : BufIdx) (s : State), s.busy = true →
    ((∃ j : Elem, finite s.fbuf[n][j] = false) →
      exec (.fdct d n) s = .next { s with fault := true, cause := 2, busy := false } ∧
      exec (.idct d n) s = .next { s with fault := true, cause := 2, busy := false }) ∧
    ((∀ j : Elem, finite s.fbuf[n][j] = true) → (∃ j : Elem, 2 ^ 24 < |fval s.fbuf[n][j]|) →
      exec (.fdct d n) s = .next { s with fault := true, cause := 3, busy := false } ∧
      exec (.idct d n) s = .next { s with fault := true, cause := 3, busy := false }) ∧
    ((∀ j : Elem, finite s.fbuf[n][j] = true ∧ |fval s.fbuf[n][j]| ≤ 2 ^ 24) →
      (∃ t, exec (.fdct d n) s = .next t ∧ t.fault = s.fault) ∧
      ∃ t, exec (.idct d n) s = .next t ∧ t.fault = s.fault)) ∧
  (∀ w : Word, (finite w = true ↔ w.extractLsb' 23 8 ≠ 255) ∧
    (finite w = true → (2 ^ 24 < |fval w| ↔ 0x4B800000 < (w.extractLsb' 0 31).toNat))) ∧
  ∀ (B : QBlock) (T : QTable) (i : Elem),
    finite (dequantBlock B T)[i] = true ∧ |fval (dequantBlock B T)[i]| ≤ 2 ^ 24

/-- R70, R71, R73: on finite coefficients and a table without a 0, QUANT completes: element `i` of the
destination is `clamp8(rha(c/d))` of the same `i`, `QSAT` is set if an element was clamped, and nothing
else changes. -/
def Obligations.QuantCompletes : Prop :=
  ∀ (d n : BufIdx) (s : State), s.busy = true → (∀ j : Elem, finite s.fbuf[n][j] = true) →
    (∀ j : Elem, s.qt[j] ≠ 0) →
    exec (.quant d n) s = .next { s with
      qbuf := s.qbuf.set d
        (Vector.ofFn fun i : Elem => enc8 (clamp8 (rha (fval s.fbuf[n][i] / (s.qt[i].toNat : ℚ)))))
      qsat := s.qsat || decide (∃ i : Elem,
        clamp8 (rha (fval s.fbuf[n][i] / (s.qt[i].toNat : ℚ))) ≠
          rha (fval s.fbuf[n][i] / (s.qt[i].toNat : ℚ)))
      busy := false }

/-- R74, R75: on a table without a 0, DEQUANT completes: element `i` of the destination is the pattern of
the exact product, finite and of that value, and nothing else changes. -/
def Obligations.DequantCompletes : Prop :=
  ∀ (d n : BufIdx) (s : State), s.busy = true → (∀ j : Elem, s.qt[j] ≠ 0) →
    ∃ R : FBlock,
      (∀ i : Elem, R[i] = fencInt (sint8 s.qbuf[n][i] * s.qt[i].toNat) ∧ finite R[i] = true ∧
        fval R[i] = sint8 s.qbuf[n][i] * s.qt[i].toNat) ∧
      exec (.dequant d n) s = .next { s with fbuf := s.fbuf.set d R, busy := false }

/-- R83, R84: ZZF and ZZI complete whatever the bytes are: the scatter and the gather laws, and nothing
else changes. -/
def Obligations.ReordersComplete : Prop :=
  ∀ (d n : BufIdx) (s : State), s.busy = true → ZigzagBijective s.zz →
    (∃ T : QBlock, (∀ i : Elem, T[s.zz[i]] = s.qbuf[n][i]) ∧
      exec (.zzf d n) s = .next { s with qbuf := s.qbuf.set d T, busy := false }) ∧
    ∃ T : QBlock, (∀ i : Elem, T[i] = s.qbuf[n][s.zz[i]]) ∧
      exec (.zzi d n) s = .next { s with qbuf := s.qbuf.set d T, busy := false }

/-- R59: the frame of every command: nothing outside its destination block and the flags of R12, read by
field and, for every word address outside the destination and `STATUS`, through the host port. -/
def Obligations.CommandFrame : Prop :=
  ∀ (i : Instr) (s t : State), exec i s = .next t →
    t.qt = s.qt ∧ t.zz = s.zz ∧ t.cmd = s.cmd ∧ t.host = s.host ∧ t.reads = s.reads ∧
    t.lat = s.lat ∧ t.draws = s.draws ∧ t.busy = false ∧
    (∀ n : BufIdx, n ≠ i.dst ∨ writesF i = false → t.fbuf[n] = s.fbuf[n]) ∧
    (∀ n : BufIdx, n ≠ i.dst ∨ writesF i = true → t.qbuf[n] = s.qbuf[n]) ∧
    (t.qsat ≠ s.qsat → (∃ d n, i = .quant d n) ∧ t.qsat = true) ∧
    (t.fault ≠ s.fault ∨ t.cause ≠ s.cause →
      t.fault = true ∧ (∀ d n, i ≠ .zzf d n ∧ i ≠ .zzi d n)) ∧
    ∀ a : WordAddr, a ≠ 0x001 →
      (∀ j : Elem, a.toNat = 0x100 + 64 * i.dst.val + j.val → writesF i = false) →
      (∀ k : Fin 16, a.toNat = 0x200 + 16 * i.dst.val + k.val → writesF i = true) →
      t.hostRead a = s.hostRead a

/-- R77: the error bound of quantizing and dequantizing, when the clamp did not act and when it did (then
a QUANT that meets this element sets `QSAT`), and the round trip of the integers. -/
def Obligations.QuantErrorBound : Prop :=
  ∀ (c : ℚ) (d : Divisor), d ≠ 0 →
    ((-128 ≤ rha (c / d.toNat) ∧ rha (c / d.toNat) ≤ 127) ↔
      (-(257 / 2) * (d.toNat : ℚ) < c ∧ c < 255 / 2 * (d.toNat : ℚ))) ∧
    (-128 ≤ rha (c / d.toNat) → rha (c / d.toNat) ≤ 127 →
      |(dequant (quant c d) d : ℚ) - c| ≤ (d.toNat : ℚ) / 2 ∧
      (|(dequant (quant c d) d : ℚ) - c| = (d.toNat : ℚ) / 2 ↔
        ∃ k : Int, k % 2 = 1 ∧ 2 * c = k * (d.toNat : ℚ))) ∧
    (127 < rha (c / d.toNat) → c - (dequant (quant c d) d : ℚ) = c - 127 * (d.toNat : ℚ)) ∧
    (rha (c / d.toNat) < -128 → (dequant (quant c d) d : ℚ) - c = -128 * (d.toNat : ℚ) - c) ∧
    (∀ b : ℚ, ∃ c' : ℚ, b < |(dequant (quant c' d) d : ℚ) - c'|) ∧
    (∀ q : Int, -128 ≤ q → q ≤ 127 →
      quant (dequant q d : ℚ) d = q ∧ rha ((dequant q d : ℚ) / d.toNat) = q) ∧
    ∀ (e n : BufIdx) (s t : State) (i : Elem), exec (.quant e n) s = .next t → t.fault = false →
      s.qt[i] = d → fval s.fbuf[n][i] = c →
      rha (c / d.toNat) < -128 ∨ 127 < rha (c / d.toNat) → t.qsat = true

/-- R73: `QSAT` is set by a QUANT that clamps, kept by one that does not and by every other command, and
cleared by CLRSAT, SRST and a hard reset; a clamping QUANT still succeeds. -/
def Obligations.SaturationFlag : Prop :=
  (∀ (d n : BufIdx) (s t : State), exec (.quant d n) s = .next t → t.fault = false →
    (t.qsat = true ↔ s.qsat = true ∨
      ∃ i : Elem, rha (fval s.fbuf[n][i] / s.qt[i].toNat) < -128 ∨
        127 < rha (fval s.fbuf[n][i] / s.qt[i].toNat))) ∧
  (∀ (i : Instr) (s t : State), (∀ d n, i ≠ .quant d n) → exec i s = .next t → t.qsat = s.qsat) ∧
  (∀ (d n : BufIdx) (s : State), s.busy = true → s.fault = false →
    (∀ j : Elem, finite s.fbuf[n][j] = true) → (∀ j : Elem, s.qt[j] ≠ 0) →
    ∃ t, exec (.quant d n) s = .next t ∧ t.fault = false ∧
      ∀ i : Elem, (127 < rha (fval s.fbuf[n][i] / s.qt[i].toNat) → t.qbuf[d][i] = 0x7F) ∧
        (rha (fval s.fbuf[n][i] / s.qt[i].toNat) < -128 → t.qbuf[d][i] = 0x80)) ∧
  ∀ s : State, (s.hostWrite 0x002 0x2).qsat = false ∧ (s.hostWrite 0x002 0x1).qsat = false ∧
    s.hardReset.qsat = false

/-- R85: ZZI after ZZF and ZZF after ZZI are the identity on the source block, into any buffers, and both
permute the bytes. -/
def Obligations.ReorderInverse : Prop :=
  ∀ (d e n : BufIdx) (s : State), s.busy = true → ZigzagBijective s.zz →
    (∃ t u, exec (.zzf d n) s = .next t ∧ exec (.zzi e d) { t with busy := true } = .next u ∧
      u.qbuf[e] = s.qbuf[n] ∧ t.qbuf[d].toList.Perm s.qbuf[n].toList) ∧
    ∃ t u, exec (.zzi d n) s = .next t ∧ exec (.zzf e d) { t with busy := true } = .next u ∧
      u.qbuf[e] = s.qbuf[n] ∧ t.qbuf[d].toList.Perm s.qbuf[n].toList

/-- R82, R86: the default table is a bijection, R86's table is its inverse, and under it ZZF leaves
`Q[DST][k] = Q_old[SRC][ZZINV[k]]`. The default table is from general knowledge (log entry 4). -/
def Obligations.DefaultZigzagTable : Prop :=
  ZigzagBijective defaultZigzag ∧
  (∀ k : Elem, defaultZigzag[defaultZigzagInverse[k]] = k) ∧
  ∀ (d n : BufIdx) (s : State), s.busy = true → s.zz = defaultZigzag →
    ∃ t, exec (.zzf d n) s = .next t ∧
      ∀ k : Elem, t.qbuf[d][k] = s.qbuf[n][defaultZigzagInverse[k]]

/-! ### Faults -/

/-- R103: one command reports one cause, the one with the lowest code among those whose condition (R101)
holds; with none, it reports none. An illegal word is tested for nothing else. -/
def Obligations.OneCauseLowestCode : Prop :=
  ∀ s : State, s.busy = true →
    ((∃ e, decode s.cmd = .error e) →
      complete s = .next { s with fault := true, cause := 1, busy := false }) ∧
    ∀ i : Instr, decode s.cmd = .ok i →
      (∀ c : Cause, FaultCondition i s c →
        (∀ c' : Cause, FaultCondition i s c' → c.code.toNat ≤ c'.code.toNat) →
        complete s = .next { s with fault := true, cause := c.code, busy := false }) ∧
      ((∀ c : Cause, ¬FaultCondition i s c) →
        ∃ t, complete s = .next t ∧ t.fault = s.fault ∧ t.cause = s.cause)

/-- R104: what a fault is, exactly: `FAULT` and `CAUSE` set, `BUSY` cleared, and `CMD`, `QSAT`, the
buffers, `QT` and `ZZ` unchanged; the host learns of it by reading `STATUS`. -/
def Obligations.FaultEntry : Prop :=
  ∀ s t : State, s.fault = false → complete s = .next t → t.fault = true →
    (∃ c : Cause, t = { s with fault := true, cause := c.code, busy := false } ∧
      1 ≤ c.code.toNat ∧ c.code.toNat ≤ 4) ∧
    (t.hostRead 0x001).getLsbD 1 = true

/-- R102: which command can raise which cause: no other cause, and each of these in some state; an illegal
word raises `ILLEGAL_CMD`; host transfers raise nothing. -/
def Obligations.FaultMatrix : Prop :=
  (∀ s : State, s.busy = true → (∃ e, decode s.cmd = .error e) →
    complete s = .next { s with fault := true, cause := Cause.illegalCmd.code, busy := false }) ∧
  (∀ (i : Instr) (s t : State), s.fault = false → exec i s = .next t → t.fault = true →
    ∃ c : Cause, mayRaise i c = true ∧ t.cause = c.code) ∧
  (∀ (i : Instr) (c : Cause), mayRaise i c = true →
    ∃ s t : State, s.fault = false ∧ exec i s = .next t ∧ t.fault = true ∧ t.cause = c.code) ∧
  ∀ (s : State) (e : HostEvent) (rest : List HostEvent), s.fault = false →
    (s.perform e rest).fault = false

/-- R76: QUANT (on finite coefficients) and DEQUANT raise `ZERO_DIVISOR` if any `QT[i]` is 0, even where
the byte is 0; so both do after a hard reset, whatever the buffers hold, until the table is loaded. -/
def Obligations.ZeroDivisor : Prop :=
  (∀ (d n : BufIdx) (s : State), s.busy = true → (∃ j : Elem, s.qt[j] = 0) →
    exec (.dequant d n) s = .next { s with fault := true, cause := 4, busy := false } ∧
    ((∀ j : Elem, finite s.fbuf[n][j] = true) →
      exec (.quant d n) s = .next { s with fault := true, cause := 4, busy := false })) ∧
  ∀ (d n : BufIdx) (s t : State), t = { s.hardReset with busy := true } →
    exec (.dequant d n) t = .next { t with fault := true, cause := 4, busy := false } ∧
    ∃ u, exec (.quant d n) t = .next u ∧ u.fault = true ∧ u.fbuf = t.fbuf ∧ u.qbuf = t.qbuf

/-- R106: with `FAULT = 1` a write to `CMD` completes and is dropped, and every other transfer works as
usual: it does what it does with `FAULT = 0`, and only a write to `CTRL` can touch the fault. -/
def Obligations.FaultedDropsCommands : Prop :=
  (∀ (s : State) (w : Word) (rest : List HostEvent), s.fault = true → s.busy = false →
    s.host = .write 0x000 w :: rest → step s = .next { s with host := rest }) ∧
  ∀ (s s' : State) (a : WordAddr) (w : Word), s.fault = true →
    s' = { s with fault := false, cause := 0 } →
    (a ≠ 0x001 → s.hostRead a = s'.hostRead a) ∧
    (a ≠ 0x000 → a ≠ 0x002 →
      s.hostWrite a w = { s'.hostWrite a w with fault := true, cause := s.cause }) ∧
    (w.getLsbD 0 = true → s.hostWrite 0x002 w = s'.hostWrite 0x002 w) ∧
    (w.getLsbD 0 = false →
      s.hostWrite 0x002 w = { s'.hostWrite 0x002 w with fault := true, cause := s.cause })

/-- R107: the engine leaves the faulted state by SRST or a hard reset and in no other way: a step whose host
event is neither keeps `FAULT`, `CAUSE` and `CMD`. SRST clears `FAULT`, `CAUSE`, `QSAT` and `CMD` and leaves
the rest; a hard reset is that of R24, and leaves `FAULT = 0`. -/
def Obligations.OnlyResetLeavesFault : Prop :=
  ∀ s : State, s.Inv → s.fault = true →
    (∀ (w : Word) (rest : List HostEvent), s.host = .write 0x002 w :: rest → w.getLsbD 0 = true →
      step s = .next { s with fault := false, cause := 0, qsat := false, cmd := 0, host := rest }) ∧
    (∀ rest : List HostEvent, s.host = .hardReset :: rest →
      step s = .next { s.hardReset with host := rest } ∧ s.hardReset.fault = false) ∧
    ((∀ rest, s.host ≠ .hardReset :: rest) →
      (∀ w rest, s.host = .write 0x002 w :: rest → w.getLsbD 0 = false) →
      ∃ t, step s = .next t ∧ t.fault = true ∧ t.cause = s.cause ∧ t.cmd = s.cmd)

/-! ### The host port -/

/-- R41: what a read returns at every word address, when it completes, and that it changes no state: with
`BUSY = 0` at once; with `BUSY = 1` it is held and the engine's step comes first, but a read of `STATUS`
completes, unless the engine's step comes first. (`s.lat` is the model's own field, log entry 6.) -/
def Obligations.HostReadMap : Prop :=
  ∀ s : State,
    s.hostRead 0x000 = s.cmd ∧
    (s.hostRead 0x001).toNat =
      s.busy.toNat + 2 * s.fault.toNat + 4 * s.qsat.toNat + 16 * s.cause.toNat ∧
    s.hostRead 0x002 = 0 ∧
    (∀ (a : WordAddr) (i : Elem), a.toNat = 0x040 + i.val → (s.hostRead a).toNat = s.qt[i].toNat) ∧
    (∀ (a : WordAddr) (i : Elem), a.toNat = 0x080 + i.val → (s.hostRead a).toNat = s.zz[i].val) ∧
    (∀ (a : WordAddr) (n : BufIdx) (i : Elem), a.toNat = 0x100 + 64 * n.val + i.val →
      s.hostRead a = s.fbuf[n][i]) ∧
    (∀ (a : WordAddr) (n : BufIdx) (k : Fin 16), a.toNat = 0x200 + 16 * n.val + k.val →
      s.hostRead a = s.qbuf[n][qElem k 3] ++ s.qbuf[n][qElem k 2] ++ s.qbuf[n][qElem k 1] ++
        s.qbuf[n][qElem k 0]) ∧
    (∀ a : WordAddr, (0x003 ≤ a.toNat ∧ a.toNat ≤ 0x03F) ∨ (0x0C0 ≤ a.toNat ∧ a.toNat ≤ 0x0FF) ∨
      (0x180 ≤ a.toNat ∧ a.toNat ≤ 0x1FF) ∨ 0x220 ≤ a.toNat → s.hostRead a = 0) ∧
    (∀ (a : WordAddr) (rest : List HostEvent), s.host = .read a :: rest → s.busy = false →
      step s = .next { s with reads := s.hostRead a :: s.reads, host := rest }) ∧
    ∀ (a : WordAddr) (rest : List HostEvent), s.host = .read a :: rest → s.busy = true →
      (∀ r, rest ≠ .hardReset :: r) →
      (a ≠ 0x001 → ∃ t, step s = .next t ∧ complete s = .next t ∧ t.host = s.host ∧
        t.reads = s.reads ∧ t.busy = false) ∧
      (a = 0x001 → step s = complete s ∨
        ∃ t, step s = .next t ∧
          t = { s with reads := s.hostRead 0x001 :: s.reads, lat := t.lat, host := rest })

/-- R42: what a write does at every word address, when it completes: with `BUSY = 0` at once; with
`BUSY = 1` it is held and the engine's step comes first. -/
def Obligations.HostWriteMap : Prop :=
  ∀ (s : State) (w : Word),
    (s.fault = false → ∃ t, s.hostWrite 0x000 w = t ∧
      t = { s with cmd := w, busy := true, lat := t.lat, draws := t.draws }) ∧
    (s.fault = true → s.hostWrite 0x000 w = s) ∧
    (w.getLsbD 0 = true → s.hostWrite 0x002 w =
      { s with fault := false, cause := 0, qsat := false, cmd := 0 }) ∧
    (w.getLsbD 0 = false → w.getLsbD 1 = true → s.hostWrite 0x002 w = { s with qsat := false }) ∧
    (w.getLsbD 0 = false → w.getLsbD 1 = false → s.hostWrite 0x002 w = s) ∧
    (∀ (a : WordAddr) (i : Elem), a.toNat = 0x040 + i.val →
      s.hostWrite a w = { s with qt := s.qt.set i (w.extractLsb' 0 16) }) ∧
    (∀ (a : WordAddr) (n : BufIdx) (i : Elem), a.toNat = 0x100 + 64 * n.val + i.val →
      s.hostWrite a w = { s with fbuf := s.fbuf.set n (s.fbuf[n].set i w) }) ∧
    (∀ (a : WordAddr) (n : BufIdx) (k : Fin 16), a.toNat = 0x200 + 16 * n.val + k.val →
      ∃ B : QBlock, s.hostWrite a w = { s with qbuf := s.qbuf.set n B } ∧
        (∀ j : Fin 4, B[qElem k j] = w.extractLsb' (8 * j.val) 8) ∧
        ∀ i : Elem, i.val / 4 ≠ k.val → B[i] = s.qbuf[n][i]) ∧
    (∀ a : WordAddr, a.toNat = 0x001 ∨ (0x003 ≤ a.toNat ∧ a.toNat ≤ 0x03F) ∨
      (0x080 ≤ a.toNat ∧ a.toNat ≤ 0x0FF) ∨ (0x180 ≤ a.toNat ∧ a.toNat ≤ 0x1FF) ∨
      0x220 ≤ a.toNat → s.hostWrite a w = s) ∧
    (∀ (a : WordAddr) (rest : List HostEvent), s.host = .write a w :: rest → s.busy = false →
      step s = .next { s.hostWrite a w with host := rest }) ∧
    ∀ (a : WordAddr) (rest : List HostEvent), s.host = .write a w :: rest → s.busy = true →
      (∀ r, rest ≠ .hardReset :: r) →
      ∃ t, step s = .next t ∧ complete s = .next t ∧ t.host = s.host ∧ t.busy = false

/-- R33, R35, R36, R40: a word written to `QT`, `F` or `Q` reads back (of a `QT` word, its low half), and
every other word address reads as before. -/
def Obligations.WriteReadBack : Prop :=
  ∀ (s : State) (a b : WordAddr) (w : Word),
    (0x040 ≤ a.toNat ∧ a.toNat ≤ 0x07F → (s.hostWrite a w).hostRead a = w &&& 0xFFFF) ∧
    ((0x100 ≤ a.toNat ∧ a.toNat ≤ 0x17F) ∨ (0x200 ≤ a.toNat ∧ a.toNat ≤ 0x21F) →
      (s.hostWrite a w).hostRead a = w) ∧
    (b ≠ a → a.toNat ≠ 0x000 → a.toNat ≠ 0x002 → (s.hostWrite a w).hostRead b = s.hostRead b)

/-- R36: byte `j` of word `k` of `Q[n]` is element `4k+j`, for reads and for writes; its byte offset in the
window is `0x800 + 64n` and the element's index. -/
def Obligations.QWordPacking : Prop :=
  ∀ (s : State) (a : WordAddr) (w : Word) (n : BufIdx) (k : Fin 16) (j : Fin 4),
    a.toNat = 0x200 + 16 * n.val + k.val →
    4 * a.toNat + j.val = 0x800 + 64 * n.val + (qElem k j).val ∧
    (s.hostRead a).extractLsb' (8 * j.val) 8 = s.qbuf[n][qElem k j] ∧
    (s.hostWrite a w).qbuf[n][qElem k j] = w.extractLsb' (8 * j.val) 8 ∧
    (qElem k j).val = 4 * k.val + j.val

/-- R39: a read of a reserved address or of `CTRL`, and a write to a reserved address, to `STATUS` or to
`ZZ`, complete like any other transfer: the read returns 0, the write is ignored, and nothing is set. While
`BUSY = 1` all of them are held: the engine's step comes first, and they complete so in the step after. -/
def Obligations.ReservedAndReadOnly : Prop :=
  ∀ (s : State) (a : WordAddr) (w : Word) (rest : List HostEvent),
    ((0x003 ≤ a.toNat ∧ a.toNat ≤ 0x03F) ∨ (0x0C0 ≤ a.toNat ∧ a.toNat ≤ 0x0FF) ∨
      (0x180 ≤ a.toNat ∧ a.toNat ≤ 0x1FF) ∨ 0x220 ≤ a.toNat ∨ a.toNat = 0x002 →
      s.host = .read a :: rest →
      (s.busy = false → step s = .next { s with reads := 0 :: s.reads, host := rest }) ∧
      (s.busy = true → (∀ r, rest ≠ .hardReset :: r) →
        ∃ t, step s = .next t ∧ complete s = .next t ∧ t.host = s.host ∧ t.reads = s.reads ∧
          step t = .next { t with reads := 0 :: t.reads, host := rest })) ∧
    ((0x003 ≤ a.toNat ∧ a.toNat ≤ 0x03F) ∨ (0x0C0 ≤ a.toNat ∧ a.toNat ≤ 0x0FF) ∨
      (0x180 ≤ a.toNat ∧ a.toNat ≤ 0x1FF) ∨ 0x220 ≤ a.toNat ∨ a.toNat = 0x001 ∨
      (0x080 ≤ a.toNat ∧ a.toNat ≤ 0x0BF) →
      s.host = .write a w :: rest →
      (s.busy = false → step s = .next { s with host := rest }) ∧
      (s.busy = true → (∀ r, rest ≠ .hardReset :: r) →
        ∃ t, step s = .next t ∧ complete s = .next t ∧ t.host = s.host ∧ t.reads = s.reads ∧
          step t = .next { t with host := rest }))

/-- R92, with the two operations of R90 and R91: `CTRL` by its two low bits; the other bits are ignored,
and it reads as 0. -/
def Obligations.CtrlOperations : Prop :=
  ∀ (s : State) (w : Word),
    (w.extractLsb' 0 2 = 0 → s.hostWrite 0x002 w = s) ∧
    (w.extractLsb' 0 2 = 1 ∨ w.extractLsb' 0 2 = 3 → s.hostWrite 0x002 w =
      { s with fault := false, cause := 0, qsat := false, cmd := 0 }) ∧
    (w.extractLsb' 0 2 = 2 → s.hostWrite 0x002 w = { s with qsat := false }) ∧
    s.hostWrite 0x002 w = s.hostWrite 0x002 (w &&& 3) ∧
    (s.hostWrite 0x002 w).hostRead 0x002 = 0

/-- R43: while `BUSY = 1` every transfer but a read of `STATUS` is held: the next step is the engine's and
leaves it asked for, and the step after that completes it against the state the command left. A read of
`STATUS` is not held: it completes, or the engine's step comes first and it completes after that. The
hold cannot deadlock: whatever the host asks for, some number of steps leads to `BUSY = 0`. (A hard reset
that follows abandons what is held, R121.) -/
def Obligations.HoldWhileBusy : Prop :=
  ∀ (s : State) (e : HostEvent) (rest : List HostEvent), s.busy = true → s.host = e :: rest →
    ((∃ a, e = .read a ∧ a ≠ 0x001) ∨ (∃ a w, e = .write a w) →
      (∀ r, rest ≠ .hardReset :: r) →
      ∃ t, step s = .next t ∧ complete s = .next t ∧ t.host = s.host ∧ t.reads = s.reads ∧
        t.busy = false ∧ step t = .next (t.perform e rest)) ∧
    (e = .read 0x001 → (∀ r, rest ≠ .hardReset :: r) →
      (∃ t, step s = .next t ∧
        t = { s with reads := s.statusWord :: s.reads, lat := t.lat, host := rest }) ∨
      ∃ t, step s = .next t ∧ complete s = .next t ∧ t.host = s.host ∧
        step t = .next { t with reads := t.statusWord :: t.reads, host := rest }) ∧
    ∃ (k : Nat) (t : State), Host.Core.run Sys2Proof.core k s = .next t ∧ t.busy = false ∧
      ∃ before, s.host = before ++ t.host

/-- R41, R43, R58: a read of `STATUS` completes while `BUSY = 1`. A command accepted with the `n`-th draw has
the latency `Config.latency n`; a read of `STATUS` completes, and uses one of it up, as long as any is left,
and with none left the engine's step comes first; so `n` reads in a row, `n` at most the latency, all see
the `STATUS` word of that moment. Counting the latency so is the model's choice (log entry 6). -/
def Obligations.StatusReadsWhileBusy : Prop :=
  (∀ (s : State) (w : Word), s.fault = false →
    (s.hostWrite 0x000 w).lat = Config.latency s.draws ∧ (s.hostWrite 0x000 w).draws = s.draws + 1) ∧
  (∀ (s : State) (rest : List HostEvent), s.busy = true → s.host = .read 0x001 :: rest →
    (s.lat ≠ 0 → step s = .next { s with
      reads := s.statusWord :: s.reads, lat := s.lat - 1, host := rest }) ∧
    (s.lat = 0 → step s = complete s)) ∧
  ∀ (s : State) (n : Nat) (rest : List HostEvent), s.busy = true → n ≤ s.lat →
    s.host = List.replicate n (.read 0x001) ++ rest →
    Host.Core.run Sys2Proof.core n s = .next { s with
      reads := List.replicate n s.statusWord ++ s.reads, lat := s.lat - n, host := rest }

/-- R22, R40, R45: until the engine's step, nothing of a command in progress can be seen: a step that
leaves `BUSY = 1` changed only the host's side, and used up latency (the model's own count, log entry
6). -/
def Obligations.BusyStateIsFrozen : Prop :=
  ∀ s t : State, s.busy = true → step s = .next t → t.busy = true →
    t = { s with host := t.host, reads := t.reads, lat := t.lat } ∧ t.lat < s.lat ∧
      t.reads = s.statusWord :: s.reads

/-- R58: a command word written to an idle engine with `FAULT = 0` is accepted, and the next step performs
exactly that command. -/
def Obligations.CommandWriteRunsCommand : Prop :=
  ∀ (s : State) (i : Instr), s.busy = false → s.fault = false → s.host = [commandWrite i] →
    ∃ t, step s = .next t ∧
      t = { s with cmd := encode i, busy := true, host := [], lat := t.lat, draws := t.draws } ∧
      step t = exec i t

/-- R96, R57: each turn of `WAIT` reads the `STATUS` of that moment and goes on exactly while `BUSY = 1`,
and the loop ends with `BUSY = 0`. How many turns see `BUSY = 1` is a free value, and counting it by
`s.lat` is the model's choice (log entry 6). -/
def Obligations.WaitPolls : Prop :=
  ∀ (s : State) (rest : List HostEvent), s.host = .wait :: rest →
    (s.busy = false → step s = .next { s with reads := s.statusWord :: s.reads, host := rest }) ∧
    (s.busy = true → s.lat ≠ 0 → step s = .next { s with
      reads := s.statusWord :: s.reads, lat := s.lat - 1 }) ∧
    (s.busy = true → s.lat = 0 → step s = complete s) ∧
    ∃ (k : Nat) (t : State), Host.Core.run Sys2Proof.core k s = .next t ∧ t.host = rest ∧
      t.busy = false

/-- R121: a hard reset during a command abandons it, and a transfer that was held is abandoned too: the
command neither completes nor faults. Nothing is said of the buffers. That the reset lands in the command
exactly when the command's latency is not over is the model's choice (log entries 6 and 7). -/
def Obligations.HardResetAbandons : Prop :=
  ∀ (s : State) (rest : List HostEvent), s.busy = true → s.lat ≠ 0 →
    (s.host = .hardReset :: rest ∨ (∃ a, a ≠ 0x001 ∧ s.host = .read a :: .hardReset :: rest) ∨
      ∃ a w, s.host = .write a w :: .hardReset :: rest) →
    ∃ t, step s = .next t ∧ t.busy = false ∧ t.fault = false ∧ t.cause = 0 ∧ t.qsat = false ∧
      t.cmd = 0 ∧ (∀ i : Elem, t.qt[i] = 0) ∧ t.zz = s.zz ∧ t.host = rest ∧ t.reads = s.reads

/-! ### The assembler -/

/-- R51, R55: a command line is a command exactly when its operands are of the files the command takes, and
the six forms with their words: destination first, the digit of a buffer name is the field value, and the
line is the one `HostWrite(0x000, OP + 16*SRC + 256*DST)`. -/
def Obligations.CommandLines : Prop :=
  (∀ c : AsmCommand, c.wf = false ↔ assemble (.command c) = none) ∧
  ∀ d s : BufIdx,
    assemble (.command { mnemonic := .fdct, dst := .f d, src := .f s }) =
      some [.write 0x000 (BitVec.ofNat 32 (1 + 16 * s.val + 256 * d.val))] ∧
    assemble (.command { mnemonic := .idct, dst := .f d, src := .f s }) =
      some [.write 0x000 (BitVec.ofNat 32 (2 + 16 * s.val + 256 * d.val))] ∧
    assemble (.command { mnemonic := .quant, dst := .q d, src := .f s }) =
      some [.write 0x000 (BitVec.ofNat 32 (3 + 16 * s.val + 256 * d.val))] ∧
    assemble (.command { mnemonic := .dequant, dst := .f d, src := .q s }) =
      some [.write 0x000 (BitVec.ofNat 32 (4 + 16 * s.val + 256 * d.val))] ∧
    assemble (.command { mnemonic := .zzf, dst := .q d, src := .q s }) =
      some [.write 0x000 (BitVec.ofNat 32 (5 + 16 * s.val + 256 * d.val))] ∧
    assemble (.command { mnemonic := .zzi, dst := .q d, src := .q s }) =
      some [.write 0x000 (BitVec.ofNat 32 (6 + 16 * s.val + 256 * d.val))]

/-- R56: the two pseudo-commands' words, and that a faulted engine drops the rest of the sequence. -/
def Obligations.PseudoCommands : Prop :=
  assemble .encblk = some [.write 0x000 0x101, .write 0x000 0x013, .write 0x000 0x105] ∧
  assemble .decblk = some [.write 0x000 0x106, .write 0x000 0x014, .write 0x000 0x102] ∧
  ∀ (s : State) (i : Instr) (l : List Instr), s.fault = true → s.busy = false →
    s.host = (i :: l).map commandWrite →
    Host.Core.run Sys2Proof.core (i :: l).length s = .next { s with host := [] }

/-- R57: `LDQT`, `LDF` and `LDQ` load the whole table or buffer: run on an idle engine, as many steps as
they have transfers leave exactly that block there, and nothing else changed. -/
def Obligations.LoadDirectives : Prop :=
  ∀ (s : State) (rest : List HostEvent), s.busy = false →
    (∀ v : Block Word, ∃ ev, assemble (.ldqt v) = some ev ∧ ev.length = 64 ∧
      (s.host = ev ++ rest → ∃ T : QTable, (∀ i : Elem, T[i] = v[i].extractLsb' 0 16) ∧
        Host.Core.run Sys2Proof.core 64 s = .next { s with qt := T, host := rest })) ∧
    (∀ (n : BufIdx) (x : FBlock), ∃ ev, assemble (.ldf n x) = some ev ∧ ev.length = 64 ∧
      (s.host = ev ++ rest →
        Host.Core.run Sys2Proof.core 64 s = .next { s with fbuf := s.fbuf.set n x, host := rest })) ∧
    ∀ (n : BufIdx) (b : QBlock), ∃ ev, assemble (.ldq n b) = some ev ∧ ev.length = 16 ∧
      (s.host = ev ++ rest →
        Host.Core.run Sys2Proof.core 16 s = .next { s with qbuf := s.qbuf.set n b, host := rest })

/-! ### Numbers -/

/-- R6: `fenc_int`: the one binary32 pattern of an integer up to `2^24`, its construction, and the
examples. -/
def Obligations.FencIntExact : Prop :=
  (∀ n : Int, |n| ≤ 2 ^ 24 →
    finite (fencInt n) = true ∧ fval (fencInt n) = n ∧
    (n ≠ 0 → ∀ w : Word, finite w = true → fval w = n → w = fencInt n) ∧
    (n ≠ 0 → ∃ k : Nat, 2 ^ k ≤ |n| ∧ |n| < 2 ^ (k + 1) ∧ k ≤ 24 ∧
      fsign (fencInt n) = decide (n < 0) ∧ fexp (fencInt n) = 127 + k ∧
      ((2 ^ 23 + ffrac (fencInt n) : ℕ) : ℚ) * 2 ^ k = |(n : ℚ)| * 2 ^ 23)) ∧
  fencInt 0 = 0x00000000 ∧ fencInt 1 = 0x3F800000 ∧ fencInt (-1) = 0xBF800000 ∧
  fencInt 72 = 0x42900000 ∧ fencInt 576 = 0x44100000 ∧ fencInt (-128) = 0xC3000000

/-- R7: `rha` by its two formulas, and what they say: the nearest integer, halves away from zero, with
the rule's examples. -/
def Obligations.RoundHalfAway : Prop :=
  (∀ x : ℚ, (0 ≤ x → rha x = ⌊x + 1 / 2⌋) ∧ (x < 0 → rha x = -⌊-x + 1 / 2⌋) ∧
    |x - rha x| ≤ 1 / 2 ∧ (|x - rha x| = 1 / 2 → |x| < |(rha x : ℚ)|)) ∧
  rha (5 / 2) = 3 ∧ rha (-(5 / 2)) = -3 ∧ rha (24999 / 10000) = 2 ∧ rha (-(1 / 2)) = -1 ∧
  rha (1 / 2) = 1 ∧ rha 0 = 0

/-- R60: the two normalisation factors and the orthonormality of the basis matrix. -/
def Obligations.BasisOrthonormal : Prop :=
  alpha 0 = 1 / √8 ∧ (∀ k : Fin 8, k ≠ 0 → alpha k = 1 / 2) ∧
  (∀ k m : Fin 8, basis k m =
    alpha k * Real.cos (Real.pi * (2 * m.val + 1) * k.val / 16)) ∧
  (∀ m : Fin 8, basis 0 m = 1 / √8) ∧
  ∀ k l : Fin 8, ∑ m : Fin 8, basis k m * basis l m = if k = l then 1 else 0

/-- R68: the basis matrix in terms of seven cosines, and the cosines in closed form. -/
def Obligations.BasisClosedForms : Prop :=
  ∃ c : ℕ → ℝ, (∀ j, c j = Real.cos (j * Real.pi / 16)) ∧
    c 1 = √(2 + √(2 + √2)) / 2 ∧ c 2 = √(2 + √2) / 2 ∧ c 3 = √(2 + √(2 - √2)) / 2 ∧ c 4 = √2 / 2 ∧
    c 5 = √(2 - √(2 - √2)) / 2 ∧ c 6 = √(2 - √2) / 2 ∧ c 7 = √(2 - √(2 + √2)) / 2 ∧
    (∀ m : Fin 8, basis 0 m = c 4 / 2) ∧
    ∀ m : Fin 8,
      basis 1 m = ![c 1, c 3, c 5, c 7, -c 7, -c 5, -c 3, -c 1] m / 2 ∧
      basis 2 m = ![c 2, c 6, -c 6, -c 2, -c 2, -c 6, c 6, c 2] m / 2 ∧
      basis 3 m = ![c 3, -c 7, -c 1, -c 5, c 5, c 1, c 7, -c 3] m / 2 ∧
      basis 4 m = ![c 4, -c 4, -c 4, c 4, c 4, -c 4, -c 4, c 4] m / 2 ∧
      basis 5 m = ![c 5, -c 1, c 7, c 3, -c 3, -c 7, c 1, -c 5] m / 2 ∧
      basis 6 m = ![c 6, -c 2, c 2, -c 6, -c 6, c 2, -c 2, c 6] m / 2 ∧
      basis 7 m = ![c 7, -c 5, c 3, -c 1, c 1, -c 3, c 5, -c 7] m / 2

/-- R66 item 1: the exact transforms are each other's inverse. -/
def Obligations.ExactTransformsInverse : Prop :=
  (∀ X : Elem → ℝ, idctExact (fdctExact X) = X) ∧ ∀ D : Elem → ℝ, fdctExact (idctExact D) = D

/-- R66 items 2, 5 and 7: the DC term, linearity, and the symmetry of the two indices. -/
def Obligations.DcTermLinearSymmetric : Prop :=
  (∀ X : Elem → ℝ, fdctExact X 0 = 1 / 8 * ∑ i, X i) ∧
  (∀ (D : Elem → ℝ) (i : Elem), (∀ j, j ≠ 0 → D j = 0) → idctExact D i = D 0 / 8) ∧
  (∀ (X Y : Elem → ℝ) (a b : ℝ) (i : Elem),
    fdctExact (fun j => a * X j + b * Y j) i = a * fdctExact X i + b * fdctExact Y i ∧
    idctExact (fun j => a * X j + b * Y j) i = a * idctExact X i + b * idctExact Y i) ∧
  ∀ (X : Elem → ℝ) (i : Elem),
    fdctExact (fun j => X (blockIdx (colOf j) (rowOf j))) i =
      fdctExact X (blockIdx (colOf i) (rowOf i)) ∧
    idctExact (fun j => X (blockIdx (colOf j) (rowOf j))) i =
      idctExact X (blockIdx (colOf i) (rowOf i))

/-- R66 items 3 and 4: energy and gain, with equality for a constant block. -/
def Obligations.EnergyAndGain : Prop :=
  (∀ X : Elem → ℝ, ∑ i, fdctExact X i ^ 2 = ∑ i, X i ^ 2) ∧
  (∀ (X : Elem → ℝ) (M : ℝ), (∀ i, |X i| ≤ M) → ∀ i, |fdctExact X i| ≤ 8 * M ∧
    |idctExact X i| ≤ 8 * M) ∧
  ∀ v : ℝ, fdctExact (fun _ => v) 0 = 8 * v ∧ ∀ i : Elem, i ≠ 0 → fdctExact (fun _ => v) i = 0

/-- R66 item 6: the hardware round trip. FDCT of a block of magnitude at most 128, then IDCT of its
result, through any buffers and whatever happened to the rest of the state in between, gives back every
element within 9/1000; and in general within `8*TOL(M) + TOL(M')`. -/
def Obligations.HardwareRoundTrip : Prop :=
  ∀ (d e n m : BufIdx) (s u : State) (M : ℚ), s.busy = true → u.busy = true →
    (∀ j : Elem, finite s.fbuf[n][j] = true ∧ |fval s.fbuf[n][j]| ≤ M) → M ≤ 2 ^ 24 →
    8 * M + max (1 / 1000) (M / 2 ^ 20) ≤ 2 ^ 24 →
    ∃ t, exec (.fdct d n) s = .next t ∧
      (u.fbuf[m] = t.fbuf[d] → ∃ v, exec (.idct e m) u = .next v ∧ v.fault = u.fault ∧
        ∀ j : Elem, |fval v.fbuf[e][j] - fval s.fbuf[n][j]| ≤
          8 * max (1 / 1000) (M / 2 ^ 20) +
            max (1 / 1000) ((8 * M + max (1 / 1000) (M / 2 ^ 20)) / 2 ^ 20) ∧
          (M ≤ 128 → |fval v.fbuf[e][j] - fval s.fbuf[n][j]| ≤ 9 / 1000))

/-- `95_test_vectors.md` 1.1 (R62, R65, R71, R75): the uniform block of 72 under a table of 16s, through
FDCT, QUANT, DEQUANT and IDCT. -/
def Obligations.UniformBlockExample : Prop :=
  ∀ s : State, s.busy = true → s.fault = false → s.qsat = false →
    (∀ i : Elem, s.fbuf[0][i] = 0x42900000) → (∀ i : Elem, s.qt[i] = 16) →
    ∃ t u v w, exec (.fdct 1 0) s = .next t ∧ exec (.quant 0 1) { t with busy := true } = .next u ∧
      exec (.dequant 0 0) { u with busy := true } = .next v ∧
      exec (.idct 1 0) { v with busy := true } = .next w ∧
      (|fval t.fbuf[1][0] - 576| ≤ 1 / 1000 ∧ ∀ i : Elem, i ≠ 0 → |fval t.fbuf[1][i]| ≤ 1 / 1000) ∧
      (u.qbuf[0][0] = 0x24 ∧ ∀ i : Elem, i ≠ 0 → u.qbuf[0][i] = 0x00) ∧
      (v.fbuf[0][0] = 0x44100000 ∧ ∀ i : Elem, i ≠ 0 → v.fbuf[0][i] = 0x00000000) ∧
      (∀ i : Elem, |fval w.fbuf[1][i] - 72| ≤ 1 / 1000) ∧
      w.fault = false ∧ w.qsat = false
end

