-- ==== Sys2Proof/Laws/State.lean ====
section
/-! SUPPORT. One lemma per field per update of State, each true by `rfl`, so that no later proof unfolds a
record update. -/

namespace Sys2Proof.Machine

variable (s : State)

/-! ### `writeF` -/

@[simp] theorem State.writeF_fbuf (n : BufIdx) (B : FBlock) : (s.writeF n B).fbuf = s.fbuf.set n B := rfl
@[simp] theorem State.writeF_qbuf (n : BufIdx) (B : FBlock) : (s.writeF n B).qbuf = s.qbuf := rfl
@[simp] theorem State.writeF_qt (n : BufIdx) (B : FBlock) : (s.writeF n B).qt = s.qt := rfl
@[simp] theorem State.writeF_zz (n : BufIdx) (B : FBlock) : (s.writeF n B).zz = s.zz := rfl
@[simp] theorem State.writeF_cmd (n : BufIdx) (B : FBlock) : (s.writeF n B).cmd = s.cmd := rfl
@[simp] theorem State.writeF_busy (n : BufIdx) (B : FBlock) : (s.writeF n B).busy = s.busy := rfl
@[simp] theorem State.writeF_fault (n : BufIdx) (B : FBlock) : (s.writeF n B).fault = s.fault := rfl
@[simp] theorem State.writeF_qsat (n : BufIdx) (B : FBlock) : (s.writeF n B).qsat = s.qsat := rfl
@[simp] theorem State.writeF_cause (n : BufIdx) (B : FBlock) : (s.writeF n B).cause = s.cause := rfl
@[simp] theorem State.writeF_host (n : BufIdx) (B : FBlock) : (s.writeF n B).host = s.host := rfl
@[simp] theorem State.writeF_reads (n : BufIdx) (B : FBlock) : (s.writeF n B).reads = s.reads := rfl
@[simp] theorem State.writeF_lat (n : BufIdx) (B : FBlock) : (s.writeF n B).lat = s.lat := rfl
@[simp] theorem State.writeF_draws (n : BufIdx) (B : FBlock) : (s.writeF n B).draws = s.draws := rfl

/-! ### `writeQ` -/

@[simp] theorem State.writeQ_fbuf (n : BufIdx) (B : QBlock) : (s.writeQ n B).fbuf = s.fbuf := rfl
@[simp] theorem State.writeQ_qbuf (n : BufIdx) (B : QBlock) : (s.writeQ n B).qbuf = s.qbuf.set n B := rfl
@[simp] theorem State.writeQ_qt (n : BufIdx) (B : QBlock) : (s.writeQ n B).qt = s.qt := rfl
@[simp] theorem State.writeQ_zz (n : BufIdx) (B : QBlock) : (s.writeQ n B).zz = s.zz := rfl
@[simp] theorem State.writeQ_cmd (n : BufIdx) (B : QBlock) : (s.writeQ n B).cmd = s.cmd := rfl
@[simp] theorem State.writeQ_busy (n : BufIdx) (B : QBlock) : (s.writeQ n B).busy = s.busy := rfl
@[simp] theorem State.writeQ_fault (n : BufIdx) (B : QBlock) : (s.writeQ n B).fault = s.fault := rfl
@[simp] theorem State.writeQ_qsat (n : BufIdx) (B : QBlock) : (s.writeQ n B).qsat = s.qsat := rfl
@[simp] theorem State.writeQ_cause (n : BufIdx) (B : QBlock) : (s.writeQ n B).cause = s.cause := rfl
@[simp] theorem State.writeQ_host (n : BufIdx) (B : QBlock) : (s.writeQ n B).host = s.host := rfl
@[simp] theorem State.writeQ_reads (n : BufIdx) (B : QBlock) : (s.writeQ n B).reads = s.reads := rfl
@[simp] theorem State.writeQ_lat (n : BufIdx) (B : QBlock) : (s.writeQ n B).lat = s.lat := rfl
@[simp] theorem State.writeQ_draws (n : BufIdx) (B : QBlock) : (s.writeQ n B).draws = s.draws := rfl

/-! ### `orSat` -/

@[simp] theorem State.orSat_fbuf (b : Bool) : (s.orSat b).fbuf = s.fbuf := rfl
@[simp] theorem State.orSat_qbuf (b : Bool) : (s.orSat b).qbuf = s.qbuf := rfl
@[simp] theorem State.orSat_qt (b : Bool) : (s.orSat b).qt = s.qt := rfl
@[simp] theorem State.orSat_zz (b : Bool) : (s.orSat b).zz = s.zz := rfl
@[simp] theorem State.orSat_cmd (b : Bool) : (s.orSat b).cmd = s.cmd := rfl
@[simp] theorem State.orSat_busy (b : Bool) : (s.orSat b).busy = s.busy := rfl
@[simp] theorem State.orSat_fault (b : Bool) : (s.orSat b).fault = s.fault := rfl
@[simp] theorem State.orSat_qsat (b : Bool) : (s.orSat b).qsat = (s.qsat || b) := rfl
@[simp] theorem State.orSat_cause (b : Bool) : (s.orSat b).cause = s.cause := rfl
@[simp] theorem State.orSat_host (b : Bool) : (s.orSat b).host = s.host := rfl
@[simp] theorem State.orSat_reads (b : Bool) : (s.orSat b).reads = s.reads := rfl
@[simp] theorem State.orSat_lat (b : Bool) : (s.orSat b).lat = s.lat := rfl
@[simp] theorem State.orSat_draws (b : Bool) : (s.orSat b).draws = s.draws := rfl

/-! ### `finish` -/

@[simp] theorem State.finish_fbuf : (s.finish).fbuf = s.fbuf := rfl
@[simp] theorem State.finish_qbuf : (s.finish).qbuf = s.qbuf := rfl
@[simp] theorem State.finish_qt : (s.finish).qt = s.qt := rfl
@[simp] theorem State.finish_zz : (s.finish).zz = s.zz := rfl
@[simp] theorem State.finish_cmd : (s.finish).cmd = s.cmd := rfl
@[simp] theorem State.finish_busy : (s.finish).busy = false := rfl
@[simp] theorem State.finish_fault : (s.finish).fault = s.fault := rfl
@[simp] theorem State.finish_qsat : (s.finish).qsat = s.qsat := rfl
@[simp] theorem State.finish_cause : (s.finish).cause = s.cause := rfl
@[simp] theorem State.finish_host : (s.finish).host = s.host := rfl
@[simp] theorem State.finish_reads : (s.finish).reads = s.reads := rfl
@[simp] theorem State.finish_lat : (s.finish).lat = s.lat := rfl
@[simp] theorem State.finish_draws : (s.finish).draws = s.draws := rfl

/-! ### `raiseFault` -/

@[simp] theorem State.raiseFault_fbuf (c : Cause) : (s.raiseFault c).fbuf = s.fbuf := rfl
@[simp] theorem State.raiseFault_qbuf (c : Cause) : (s.raiseFault c).qbuf = s.qbuf := rfl
@[simp] theorem State.raiseFault_qt (c : Cause) : (s.raiseFault c).qt = s.qt := rfl
@[simp] theorem State.raiseFault_zz (c : Cause) : (s.raiseFault c).zz = s.zz := rfl
@[simp] theorem State.raiseFault_cmd (c : Cause) : (s.raiseFault c).cmd = s.cmd := rfl
@[simp] theorem State.raiseFault_busy (c : Cause) : (s.raiseFault c).busy = false := rfl
@[simp] theorem State.raiseFault_fault (c : Cause) : (s.raiseFault c).fault = true := rfl
@[simp] theorem State.raiseFault_qsat (c : Cause) : (s.raiseFault c).qsat = s.qsat := rfl
@[simp] theorem State.raiseFault_cause (c : Cause) : (s.raiseFault c).cause = c.code := rfl
@[simp] theorem State.raiseFault_host (c : Cause) : (s.raiseFault c).host = s.host := rfl
@[simp] theorem State.raiseFault_reads (c : Cause) : (s.raiseFault c).reads = s.reads := rfl
@[simp] theorem State.raiseFault_lat (c : Cause) : (s.raiseFault c).lat = s.lat := rfl
@[simp] theorem State.raiseFault_draws (c : Cause) : (s.raiseFault c).draws = s.draws := rfl

/-! ### `softReset` -/

@[simp] theorem State.softReset_fbuf : (s.softReset).fbuf = s.fbuf := rfl
@[simp] theorem State.softReset_qbuf : (s.softReset).qbuf = s.qbuf := rfl
@[simp] theorem State.softReset_qt : (s.softReset).qt = s.qt := rfl
@[simp] theorem State.softReset_zz : (s.softReset).zz = s.zz := rfl
@[simp] theorem State.softReset_cmd : (s.softReset).cmd = 0 := rfl
@[simp] theorem State.softReset_busy : (s.softReset).busy = s.busy := rfl
@[simp] theorem State.softReset_fault : (s.softReset).fault = false := rfl
@[simp] theorem State.softReset_qsat : (s.softReset).qsat = false := rfl
@[simp] theorem State.softReset_cause : (s.softReset).cause = 0 := rfl
@[simp] theorem State.softReset_host : (s.softReset).host = s.host := rfl
@[simp] theorem State.softReset_reads : (s.softReset).reads = s.reads := rfl
@[simp] theorem State.softReset_lat : (s.softReset).lat = s.lat := rfl
@[simp] theorem State.softReset_draws : (s.softReset).draws = s.draws := rfl

/-! ### `clrSat` -/

@[simp] theorem State.clrSat_fbuf : (s.clrSat).fbuf = s.fbuf := rfl
@[simp] theorem State.clrSat_qbuf : (s.clrSat).qbuf = s.qbuf := rfl
@[simp] theorem State.clrSat_qt : (s.clrSat).qt = s.qt := rfl
@[simp] theorem State.clrSat_zz : (s.clrSat).zz = s.zz := rfl
@[simp] theorem State.clrSat_cmd : (s.clrSat).cmd = s.cmd := rfl
@[simp] theorem State.clrSat_busy : (s.clrSat).busy = s.busy := rfl
@[simp] theorem State.clrSat_fault : (s.clrSat).fault = s.fault := rfl
@[simp] theorem State.clrSat_qsat : (s.clrSat).qsat = false := rfl
@[simp] theorem State.clrSat_cause : (s.clrSat).cause = s.cause := rfl
@[simp] theorem State.clrSat_host : (s.clrSat).host = s.host := rfl
@[simp] theorem State.clrSat_reads : (s.clrSat).reads = s.reads := rfl
@[simp] theorem State.clrSat_lat : (s.clrSat).lat = s.lat := rfl
@[simp] theorem State.clrSat_draws : (s.clrSat).draws = s.draws := rfl

/-! ### `accept` -/

@[simp] theorem State.accept_fbuf (w : Word) : (s.accept w).fbuf = s.fbuf := rfl
@[simp] theorem State.accept_qbuf (w : Word) : (s.accept w).qbuf = s.qbuf := rfl
@[simp] theorem State.accept_qt (w : Word) : (s.accept w).qt = s.qt := rfl
@[simp] theorem State.accept_zz (w : Word) : (s.accept w).zz = s.zz := rfl
@[simp] theorem State.accept_cmd (w : Word) : (s.accept w).cmd = w := rfl
@[simp] theorem State.accept_busy (w : Word) : (s.accept w).busy = true := rfl
@[simp] theorem State.accept_fault (w : Word) : (s.accept w).fault = s.fault := rfl
@[simp] theorem State.accept_qsat (w : Word) : (s.accept w).qsat = s.qsat := rfl
@[simp] theorem State.accept_cause (w : Word) : (s.accept w).cause = s.cause := rfl
@[simp] theorem State.accept_host (w : Word) : (s.accept w).host = s.host := rfl
@[simp] theorem State.accept_reads (w : Word) : (s.accept w).reads = s.reads := rfl
@[simp] theorem State.accept_lat (w : Word) : (s.accept w).lat = Config.latency s.draws := rfl
@[simp] theorem State.accept_draws (w : Word) : (s.accept w).draws = s.draws + 1 := rfl

/-! ### `hardReset` -/

@[simp] theorem State.hardReset_fbuf : (s.hardReset).fbuf = Config.powerUpF s.draws := rfl
@[simp] theorem State.hardReset_qbuf : (s.hardReset).qbuf = Config.powerUpQ s.draws := rfl
@[simp] theorem State.hardReset_qt : (s.hardReset).qt = Vector.replicate 64 0 := rfl
@[simp] theorem State.hardReset_zz : (s.hardReset).zz = s.zz := rfl
@[simp] theorem State.hardReset_cmd : (s.hardReset).cmd = 0 := rfl
@[simp] theorem State.hardReset_busy : (s.hardReset).busy = false := rfl
@[simp] theorem State.hardReset_fault : (s.hardReset).fault = false := rfl
@[simp] theorem State.hardReset_qsat : (s.hardReset).qsat = false := rfl
@[simp] theorem State.hardReset_cause : (s.hardReset).cause = 0 := rfl
@[simp] theorem State.hardReset_host : (s.hardReset).host = s.host := rfl
@[simp] theorem State.hardReset_reads : (s.hardReset).reads = s.reads := rfl
@[simp] theorem State.hardReset_lat : (s.hardReset).lat = 0 := rfl
@[simp] theorem State.hardReset_draws : (s.hardReset).draws = s.draws + 1 := rfl

/-! ### `noteRead` -/

@[simp] theorem State.noteRead_fbuf (w : Word) : (s.noteRead w).fbuf = s.fbuf := rfl
@[simp] theorem State.noteRead_qbuf (w : Word) : (s.noteRead w).qbuf = s.qbuf := rfl
@[simp] theorem State.noteRead_qt (w : Word) : (s.noteRead w).qt = s.qt := rfl
@[simp] theorem State.noteRead_zz (w : Word) : (s.noteRead w).zz = s.zz := rfl
@[simp] theorem State.noteRead_cmd (w : Word) : (s.noteRead w).cmd = s.cmd := rfl
@[simp] theorem State.noteRead_busy (w : Word) : (s.noteRead w).busy = s.busy := rfl
@[simp] theorem State.noteRead_fault (w : Word) : (s.noteRead w).fault = s.fault := rfl
@[simp] theorem State.noteRead_qsat (w : Word) : (s.noteRead w).qsat = s.qsat := rfl
@[simp] theorem State.noteRead_cause (w : Word) : (s.noteRead w).cause = s.cause := rfl
@[simp] theorem State.noteRead_host (w : Word) : (s.noteRead w).host = s.host := rfl
@[simp] theorem State.noteRead_reads (w : Word) : (s.noteRead w).reads = w :: s.reads := rfl
@[simp] theorem State.noteRead_lat (w : Word) : (s.noteRead w).lat = (if s.busy then s.lat - 1 else s.lat) := rfl
@[simp] theorem State.noteRead_draws (w : Word) : (s.noteRead w).draws = s.draws := rfl

/-! ### `withFetchWord` -/

@[simp] theorem State.withFetchWord_busy (nbits w : Nat) : (s.withFetchWord nbits w).busy = true := rfl
@[simp] theorem State.withFetchWord_host (nbits w : Nat) : (s.withFetchWord nbits w).host = [] := rfl
@[simp] theorem State.withFetchWord_cmd (nbits w : Nat) :
    (s.withFetchWord nbits w).cmd = BitVec.ofNat 32 (w % 2 ^ nbits) := rfl

end Sys2Proof.Machine
end

