-- ==== Sys2Proof/Laws/Ops.lean ====
section
/-! SUPPORT. One lemma per shared operation, saying once what it can do: the buffers, the checks, the end
of a command. -/

namespace Sys2Proof.Machine

/-! ### Buffers -/

@[simp] theorem readF_writeF_same (s : State) (n : BufIdx) (B : FBlock) : (s.writeF n B).readF n = B := by
  simp [State.readF]

theorem readF_writeF_ne (s : State) (n m : BufIdx) (B : FBlock) (h : m ≠ n) :
    (s.writeF n B).readF m = s.readF m := by
  have : n.val ≠ m.val := fun e => h (Fin.ext e.symm)
  simp [State.readF, this]

@[simp] theorem readQ_writeQ_same (s : State) (n : BufIdx) (B : QBlock) : (s.writeQ n B).readQ n = B := by
  simp [State.readQ]

theorem readQ_writeQ_ne (s : State) (n m : BufIdx) (B : QBlock) (h : m ≠ n) :
    (s.writeQ n B).readQ m = s.readQ m := by
  have : n.val ≠ m.val := fun e => h (Fin.ext e.symm)
  simp [State.readQ, this]

@[simp] theorem readQ_writeF (s : State) (n m : BufIdx) (B : FBlock) : (s.writeF n B).readQ m = s.readQ m := rfl
@[simp] theorem readF_writeQ (s : State) (n m : BufIdx) (B : QBlock) : (s.writeQ n B).readF m = s.readF m := rfl

/-! ### Checks -/

theorem allFinite_iff (S : FBlock) : allFinite S = true ↔ ∀ i : Elem, finite S[i] = true := by
  simp [allFinite]

theorem allFinite_false_iff (S : FBlock) : allFinite S = false ↔ ∃ i : Elem, finite S[i] = false := by
  rw [← Bool.not_eq_true, allFinite_iff]; simp

theorem anyOverRange_iff (S : FBlock) : anyOverRange S = true ↔ ∃ i : Elem, overRange S[i] = true := by
  simp [anyOverRange]

theorem anyZeroDivisor_iff (T : QTable) : anyZeroDivisor T = true ↔ ∃ i : Elem, T[i] = 0 := by
  simp [anyZeroDivisor]

theorem inRange_iff_checks (S : FBlock) :
    inRange S = true ↔ (∀ i : Elem, finite S[i] = true) ∧ ∀ i : Elem, overRange S[i] = false := by
  simp [inRange, forall_and]

theorem anyOverRange_false_iff (S : FBlock) :
    anyOverRange S = false ↔ ∀ i : Elem, overRange S[i] = false := by
  rw [← Bool.not_eq_true, anyOverRange_iff]; simp

/-- `check_transform` passes exactly the blocks the accuracy contract is about. -/
theorem checkTransform_none_iff (S : FBlock) : checkTransform S = none ↔ inRange S = true := by
  rw [inRange_iff_checks, ← allFinite_iff, ← anyOverRange_false_iff, checkTransform]
  rcases allFinite S <;> rcases anyOverRange S <;> simp

theorem checkTransform_nonfinite (S : FBlock) (h : ∃ i : Elem, finite S[i] = false) :
    checkTransform S = some .operandNonfinite := by
  simp [checkTransform, (allFinite_false_iff S).2 h]

theorem checkTransform_range (S : FBlock) (h : ∀ i : Elem, finite S[i] = true)
    (ho : ∃ i : Elem, overRange S[i] = true) : checkTransform S = some .operandRange := by
  simp [checkTransform, (allFinite_iff S).2 h, (anyOverRange_iff S).2 ho]

theorem checkQuant_none_iff (S : FBlock) (T : QTable) :
    checkQuant S T = none ↔ (∀ i : Elem, finite S[i] = true) ∧ ∀ i : Elem, T[i] ≠ 0 := by
  rw [← allFinite_iff]
  have hz : (∀ i : Elem, T[i] ≠ 0) ↔ anyZeroDivisor T = false := by
    rw [← Bool.not_eq_true, anyZeroDivisor_iff]; simp
  rw [hz]
  unfold checkQuant
  rcases allFinite S <;> rcases anyZeroDivisor T <;> simp

theorem checkQuant_nonfinite (S : FBlock) (T : QTable) (h : ∃ i : Elem, finite S[i] = false) :
    checkQuant S T = some .operandNonfinite := by
  simp [checkQuant, (allFinite_false_iff S).2 h]

theorem checkQuant_zero (S : FBlock) (T : QTable) (h : ∀ i : Elem, finite S[i] = true)
    (hz : ∃ i : Elem, T[i] = 0) : checkQuant S T = some .zeroDivisor := by
  simp [checkQuant, (allFinite_iff S).2 h, (anyZeroDivisor_iff T).2 hz]

theorem checkDequant_none_iff (T : QTable) : checkDequant T = none ↔ ∀ i : Elem, T[i] ≠ 0 := by
  have hz : (∀ i : Elem, T[i] ≠ 0) ↔ anyZeroDivisor T = false := by
    rw [← Bool.not_eq_true, anyZeroDivisor_iff]; simp
  rw [hz, checkDequant]
  rcases anyZeroDivisor T <;> simp

theorem checkDequant_zero (T : QTable) (hz : ∃ i : Elem, T[i] = 0) :
    checkDequant T = some .zeroDivisor := by
  simp [checkDequant, (anyZeroDivisor_iff T).2 hz]

@[simp] theorem checked_none {α : Type} (x : α) : checked none x = .ok x := rfl
@[simp] theorem checked_some {α : Type} (c : Cause) (x : α) : checked (some c) x = .error c := rfl

/-- A block of zero patterns passes every operand check. -/
theorem inRange_replicate (w : Word) (hf : finite w = true) (ho : overRange w = false) :
    inRange (Vector.replicate 64 w) = true := by
  simp [inRange, hf, ho]

/-! ### The end of a command -/

@[simp] theorem completeWith_ok {α : Type} (s : State) (x : α) (k : State → α → State)
    (h : s.busy = true) : s.completeWith (.ok x) k = .next (k s x).finish := by
  simp [State.completeWith, h]

@[simp] theorem completeWith_error {α : Type} (s : State) (c : Cause) (k : State → α → State)
    (h : s.busy = true) : s.completeWith (.error c) k = .next (s.raiseFault c) := by
  simp [State.completeWith, h]

/-- Everything the *complete* step can do: with `BUSY = 1` it goes on, to the fault or to the result. -/
theorem completeWith_cases {α : Type} {s t : State} {r : Except Cause α} {k : State → α → State}
    (h : s.completeWith r k = .next t) :
    s.busy = true ∧ ((∃ c, r = .error c ∧ t = s.raiseFault c) ∨ ∃ x, r = .ok x ∧ t = (k s x).finish) := by
  unfold State.completeWith at h
  split at h
  · rename_i hb
    refine ⟨hb, ?_⟩
    rcases r with c | x
    · exact .inl ⟨c, rfl, (Host.Outcome.next.inj h).symm⟩
    · exact .inr ⟨x, rfl, (Host.Outcome.next.inj h).symm⟩
  · cases h

theorem completeWith_total {α : Type} (s : State) (r : Except Cause α) (k : State → α → State)
    (h : s.busy = true) : ∃ t, s.completeWith r k = .next t := by
  rcases r with c | x
  · exact ⟨_, completeWith_error s c k h⟩
  · exact ⟨_, completeWith_ok s x k h⟩

theorem checked_eq_error {α : Type} {c : Option Cause} {x : α} {c' : Cause}
    (h : checked c x = .error c') : c = some c' := by
  cases c with
  | none => cases h
  | some d => cases h; rfl

theorem checked_eq_ok {α : Type} {c : Option Cause} {x y : α} (h : checked c x = .ok y) :
    c = none ∧ y = x := by
  cases c with
  | none => cases h; exact ⟨rfl, rfl⟩
  | some d => cases h

/-- What the causes of the checks can be. -/
theorem checkTransform_cause {S : FBlock} {c : Cause} (h : checkTransform S = some c) :
    (c = .operandNonfinite ∧ ∃ i : Elem, finite S[i] = false) ∨
      (c = .operandRange ∧ (∀ i : Elem, finite S[i] = true) ∧ ∃ i : Elem, overRange S[i] = true) := by
  unfold checkTransform at h
  split at h
  · exact .inl ⟨(Option.some.inj h).symm, (allFinite_false_iff S).1 ‹_›⟩
  · rename_i hf
    split at h
    · exact .inr ⟨(Option.some.inj h).symm, (allFinite_iff S).1 (by simpa using hf),
        (anyOverRange_iff S).1 ‹_›⟩
    · cases h

theorem checkQuant_cause {S : FBlock} {T : QTable} {c : Cause} (h : checkQuant S T = some c) :
    (c = .operandNonfinite ∧ ∃ i : Elem, finite S[i] = false) ∨
      (c = .zeroDivisor ∧ (∀ i : Elem, finite S[i] = true) ∧ ∃ i : Elem, T[i] = 0) := by
  unfold checkQuant at h
  split at h
  · exact .inl ⟨(Option.some.inj h).symm, (allFinite_false_iff S).1 ‹_›⟩
  · rename_i hf
    split at h
    · exact .inr ⟨(Option.some.inj h).symm, (allFinite_iff S).1 (by simpa using hf),
        (anyZeroDivisor_iff T).1 ‹_›⟩
    · cases h

theorem checkDequant_cause {T : QTable} {c : Cause} (h : checkDequant T = some c) :
    c = .zeroDivisor ∧ ∃ i : Elem, T[i] = 0 := by
  unfold checkDequant at h
  split at h
  · exact ⟨(Option.some.inj h).symm, (anyZeroDivisor_iff T).1 ‹_›⟩
  · cases h

end Sys2Proof.Machine
end

