-- ==== Sys2Proof/Laws/HostPort.lean ====
section
/-! SUPPORT. The address map region by region, and what a read and a write at each kind of location do
(`20_memory.md` R32 to R36, R41, R42). -/

namespace Sys2Proof.Machine

theorem locate_cmd : locate 0x000 = .cmd := by decide
theorem locate_status : locate 0x001 = .status := by decide
theorem locate_ctrl : locate 0x002 = .ctrl := by decide

theorem locate_qt (a : WordAddr) (i : Elem) (h : a.toNat = 0x040 + i.val) : locate a = .qt i := by
  have hi := i.isLt
  unfold locate
  simp only [h]
  rw [if_neg (by omega), if_neg (by omega), if_neg (by omega)]
  rw [if_pos (by omega)]
  exact congrArg Location.qt (Fin.ext (by rw [Fin.val_ofNat]; omega))

theorem locate_zz (a : WordAddr) (i : Elem) (h : a.toNat = 0x080 + i.val) : locate a = .zz i := by
  have hi := i.isLt
  unfold locate
  simp only [h]
  rw [if_neg (by omega), if_neg (by omega), if_neg (by omega), if_neg (by omega)]
  rw [if_pos (by omega)]
  exact congrArg Location.zz (Fin.ext (by rw [Fin.val_ofNat]; omega))

theorem locate_f (a : WordAddr) (n : BufIdx) (i : Elem) (h : a.toNat = 0x100 + 64 * n.val + i.val) :
    locate a = .f n i := by
  have hi := i.isLt
  have hn := n.isLt
  unfold locate
  simp only [h]
  rw [if_neg (by omega), if_neg (by omega), if_neg (by omega), if_neg (by omega), if_neg (by omega)]
  rw [if_pos (by omega)]
  exact congrArg₂ Location.f (Fin.ext (by rw [Fin.val_ofNat]; omega)) (Fin.ext (by rw [Fin.val_ofNat]; omega))

theorem locate_q (a : WordAddr) (n : BufIdx) (k : Fin 16) (h : a.toNat = 0x200 + 16 * n.val + k.val) :
    locate a = .q n k := by
  have hk := k.isLt
  have hn := n.isLt
  unfold locate
  simp only [h]
  rw [if_neg (by omega), if_neg (by omega), if_neg (by omega), if_neg (by omega), if_neg (by omega), if_neg (by omega)]
  rw [if_pos (by omega)]
  exact congrArg₂ Location.q (Fin.ext (by rw [Fin.val_ofNat]; omega)) (Fin.ext (by rw [Fin.val_ofNat]; omega))

theorem locate_reserved (a : WordAddr)
    (h : (0x003 ≤ a.toNat ∧ a.toNat ≤ 0x03F) ∨ (0x0C0 ≤ a.toNat ∧ a.toNat ≤ 0x0FF) ∨
      (0x180 ≤ a.toNat ∧ a.toNat ≤ 0x1FF) ∨ (0x220 ≤ a.toNat ∧ a.toNat ≤ 0x3FF)) :
    locate a = .reserved := by
  unfold locate
  simp only
  repeat rw [if_neg (by omega)]

/-! ### Reads and writes, by the kind of location -/

section transfer
variable (s : State) (a : WordAddr) (w : Word)

theorem hostRead_cmd : s.hostRead 0x000 = s.cmd := by simp only [State.hostRead, locate_cmd]
theorem hostRead_status : s.hostRead 0x001 = s.statusWord := by simp only [State.hostRead, locate_status]
theorem hostRead_ctrl : s.hostRead 0x002 = 0 := by simp only [State.hostRead, locate_ctrl]
theorem hostWrite_cmd : s.hostWrite 0x000 w = s.writeCmd w := by simp only [State.hostWrite, locate_cmd]
theorem hostWrite_ctrl : s.hostWrite 0x002 w = s.writeCtrl w := by simp only [State.hostWrite, locate_ctrl]

theorem hostRead_qt (i : Elem) (h : locate a = .qt i) : s.hostRead a = s.qt[i].zeroExtend 32 := by
  simp only [State.hostRead, h]

theorem hostRead_zz (i : Elem) (h : locate a = .zz i) : s.hostRead a = BitVec.ofNat 32 s.zz[i].val := by
  simp only [State.hostRead, h]

theorem hostRead_f (n : BufIdx) (i : Elem) (h : locate a = .f n i) :
    s.hostRead a = (s.readF n)[i] := by
  simp only [State.hostRead, h]

theorem hostRead_q (n : BufIdx) (k : Fin 16) (h : locate a = .q n k) :
    s.hostRead a = packQ (s.readQ n) k := by
  simp only [State.hostRead, h]

theorem hostRead_reserved (h : locate a = .reserved) : s.hostRead a = 0 := by
  simp only [State.hostRead, h]

theorem hostWrite_qt (i : Elem) (h : locate a = .qt i) :
    s.hostWrite a w = { s with qt := s.qt.set i (w.extractLsb' 0 16) } := by
  simp only [State.hostWrite, h]

theorem hostWrite_f (n : BufIdx) (i : Elem) (h : locate a = .f n i) :
    s.hostWrite a w = s.writeF n ((s.readF n).set i w) := by
  simp only [State.hostWrite, h]

theorem hostWrite_q (n : BufIdx) (k : Fin 16) (h : locate a = .q n k) :
    s.hostWrite a w = s.writeQ n (unpackQ (s.readQ n) k w) := by
  simp only [State.hostWrite, h]

theorem hostWrite_ignored (h : locate a = .reserved ∨ locate a = .status ∨ ∃ i, locate a = .zz i) :
    s.hostWrite a w = s := by
  rcases h with h | h | ⟨i, h⟩ <;> simp only [State.hostWrite, h]

/-- A completed write never touches what the host holds: its program, its read results. -/
theorem hostWrite_frame : (s.hostWrite a w).host = s.host ∧ (s.hostWrite a w).reads = s.reads ∧
    (s.hostWrite a w).zz = s.zz := by
  unfold State.hostWrite State.writeCmd State.writeCtrl
  rcases locate a with _ | _ | _ | _ | _ | _ | _ | _ <;> simp only <;> (try split_ifs) <;> simp

end transfer

end Sys2Proof.Machine
end

