-- ==== Sys2Proof/Laws/PerInstr.lean ====
section
/-! SUPPORT. Families of laws stated per constructor of Instr. -/

/-- The fields of a command's word are well-formed, and they are the command's own (R50, R53). -/
def Sys2Proof.Laws.EncodedFields.Statement (i : Sys2Proof.Instr) : Prop :=
  (Sys2Proof.CommandFields.ofWord (Sys2Proof.encode i)).wf = true ∧
    (Sys2Proof.CommandFields.ofWord (Sys2Proof.encode i)).op.toNat = i.opcode ∧
    (Sys2Proof.CommandFields.ofWord (Sys2Proof.encode i)).toWord = Sys2Proof.encode i

namespace Sys2Proof.Laws.EncodedFields

theorem fdct (dst src : BufIdx) : Statement (.fdct dst src) := by
  revert dst src; unfold Statement; decide

theorem idct (dst src : BufIdx) : Statement (.idct dst src) := by
  revert dst src; unfold Statement; decide

theorem quant (dst src : BufIdx) : Statement (.quant dst src) := by
  revert dst src; unfold Statement; decide

theorem dequant (dst src : BufIdx) : Statement (.dequant dst src) := by
  revert dst src; unfold Statement; decide

theorem zzf (dst src : BufIdx) : Statement (.zzf dst src) := by
  revert dst src; unfold Statement; decide

theorem zzi (dst src : BufIdx) : Statement (.zzi dst src) := by
  revert dst src; unfold Statement; decide

end Sys2Proof.Laws.EncodedFields
end

