-- ==== Sys2Proof/Laws/Zigzag.lean ====
section
/-! SUPPORT. The spec lemmas of the reorderer's two permutations (`42_reorder.md` R83, R84). -/

namespace Sys2Proof.Machine

@[simp] theorem gather_get (zz : ZTable) (b : QBlock) (i : Elem) : (gather zz b)[i] = b[zz[i]] := by
  simp [gather]

/-- A scatter loop leaves at `zz[i]` what its last write there put. -/
theorem scatter_foldl (zz : ZTable) (b : QBlock) (inj : Function.Injective fun i : Elem => zz[i])
    (l : List Elem) (t : QBlock) (i : Elem) :
    (l.foldl (fun t i => t.set (zz[i] : Elem) b[i]) t)[zz[i]] = if i ∈ l then b[i] else t[zz[i]] := by
  induction l generalizing t with
  | nil => simp
  | cons a l ih =>
    rw [List.foldl_cons, ih]
    by_cases hl : i ∈ l
    · simp [hl]
    · by_cases ha : i = a
      · subst ha; simp [hl]
      · have hne : (zz[a] : Elem).val ≠ (zz[i] : Elem).val := fun e => ha (inj (Fin.ext e.symm))
        rw [if_neg hl, if_neg (by simp [hl, ha])]
        exact Vector.getElem_set_ne _ _ hne

/-- The scatter law of ZZF: `T[ZZ[i]] = B[i]` (R83). -/
theorem scatter_get (zz : ZTable) (b : QBlock) (h : ZigzagBijective zz) (i : Elem) :
    (scatter zz b)[zz[i]] = b[i] := by
  rw [scatter, scatter_foldl zz b h.1, if_pos (List.mem_finRange i)]

theorem zigzagBijective_default : ZigzagBijective defaultZigzag := by decide +kernel

end Sys2Proof.Machine
end

