-- ==== Sys2Proof/Laws/Step.lean ====
section
/-! SUPPORT. What a command, the engine's step and a step of the machine can do, said once. -/

namespace Sys2Proof.Machine

/-! ### What each command is, over the shared operation -/

theorem exec_fdct (d n : BufIdx) (s : State) : exec (.fdct d n) s =
    s.completeWith (checked (checkTransform (s.readF n)) (Config.fdctImpl (s.readF n)))
      fun t R => t.writeF d R := rfl

theorem exec_idct (d n : BufIdx) (s : State) : exec (.idct d n) s =
    s.completeWith (checked (checkTransform (s.readF n)) (Config.idctImpl (s.readF n)))
      fun t R => t.writeF d R := rfl

theorem exec_quant (d n : BufIdx) (s : State) : exec (.quant d n) s =
    s.completeWith
      (checked (checkQuant (s.readF n) s.qt)
        (quantBlock (s.readF n) s.qt, quantClamps (s.readF n) s.qt))
      fun t R => (t.writeQ d R.1).orSat R.2 := rfl

theorem exec_dequant (d n : BufIdx) (s : State) : exec (.dequant d n) s =
    s.completeWith (checked (checkDequant s.qt) (dequantBlock (s.readQ n) s.qt))
      fun t R => t.writeF d R := rfl

theorem exec_zzf (d n : BufIdx) (s : State) : exec (.zzf d n) s =
    s.completeWith (.ok (scatter s.zz (s.readQ n))) fun t R => t.writeQ d R := rfl

theorem exec_zzi (d n : BufIdx) (s : State) : exec (.zzi d n) s =
    s.completeWith (.ok (gather s.zz (s.readQ n))) fun t R => t.writeQ d R := rfl

/-- A command's check, none where it has none. -/
def commandCheck (i : Instr) (s : State) : Option Cause :=
  match i with
  | .fdct _ n => checkTransform (s.readF n)
  | .idct _ n => checkTransform (s.readF n)
  | .quant _ n => checkQuant (s.readF n) s.qt
  | .dequant _ _ => checkDequant s.qt
  | .zzf _ _ => none
  | .zzi _ _ => none

/-- The state a command leaves when its checks pass. -/
def commandResult (i : Instr) (s : State) : State :=
  match i with
  | .fdct d n => (s.writeF d (Config.fdctImpl (s.readF n))).finish
  | .idct d n => (s.writeF d (Config.idctImpl (s.readF n))).finish
  | .quant d n =>
    ((s.writeQ d (quantBlock (s.readF n) s.qt)).orSat (quantClamps (s.readF n) s.qt)).finish
  | .dequant d n => (s.writeF d (dequantBlock (s.readQ n) s.qt)).finish
  | .zzf d n => (s.writeQ d (scatter s.zz (s.readQ n))).finish
  | .zzi d n => (s.writeQ d (gather s.zz (s.readQ n))).finish

/-- What a command does with `BUSY = 1`: the fault of its check, or its result. -/
theorem exec_eq (i : Instr) (s : State) (h : s.busy = true) :
    exec i s = .next (match commandCheck i s with
      | some c => s.raiseFault c
      | none => commandResult i s) := by
  cases i <;>
    simp only [exec_fdct, exec_idct, exec_quant, exec_dequant, exec_zzf, exec_zzi, commandCheck,
      commandResult, State.completeWith, h, if_true] <;>
    first
    | rfl
    | (generalize checkTransform _ = c; rcases c <;> rfl)
    | (generalize checkQuant _ _ = c; rcases c <;> rfl)
    | (generalize checkDequant _ = c; rcases c <;> rfl)

theorem exec_result (i : Instr) (s : State) (h : s.busy = true) (hc : commandCheck i s = none) :
    exec i s = .next (commandResult i s) := by
  rw [exec_eq i s h, hc]

theorem exec_faults (i : Instr) (s : State) (h : s.busy = true) (c : Cause)
    (hc : commandCheck i s = some c) : exec i s = .next (s.raiseFault c) := by
  rw [exec_eq i s h, hc]

theorem exec_not_busy (i : Instr) (s : State) (h : s.busy = false) :
    exec i s = .fault .completeNotEnabled := by
  cases i <;>
    simp [exec_fdct, exec_idct, exec_quant, exec_dequant, exec_zzf, exec_zzi, State.completeWith, h]

/-- Everything a command can do when it goes on: with `BUSY = 1`, its fault or its result. -/
theorem exec_cases {i : Instr} {s t : State} (h : exec i s = .next t) :
    s.busy = true ∧ ((∃ c, commandCheck i s = some c ∧ t = s.raiseFault c) ∨
      (commandCheck i s = none ∧ t = commandResult i s)) := by
  rcases hb : s.busy with _ | _
  · rw [exec_not_busy i s hb] at h; cases h
  · refine ⟨rfl, ?_⟩
    rcases hc : commandCheck i s with _ | c
    · rw [exec_result i s hb hc] at h; exact .inr ⟨rfl, (Host.Outcome.next.inj h).symm⟩
    · rw [exec_faults i s hb c hc] at h; exact .inl ⟨c, rfl, (Host.Outcome.next.inj h).symm⟩

/-- A command with `BUSY = 1` goes on. -/
theorem exec_total (i : Instr) (s : State) (h : s.busy = true) : ∃ t, exec i s = .next t :=
  ⟨_, exec_eq i s h⟩

/-- What no command's result changes, whatever the command. -/
theorem commandResult_frame (i : Instr) (s : State) :
    (commandResult i s).busy = false ∧ (commandResult i s).fault = s.fault ∧
      (commandResult i s).cause = s.cause ∧ (commandResult i s).qt = s.qt ∧
      (commandResult i s).zz = s.zz ∧ (commandResult i s).cmd = s.cmd ∧
      (commandResult i s).host = s.host ∧ (commandResult i s).reads = s.reads ∧
      (commandResult i s).lat = s.lat ∧ (commandResult i s).draws = s.draws := by
  cases i <;> simp [commandResult]

theorem complete_ok {s : State} {i : Instr} (h : decode s.cmd = .ok i) : complete s = exec i s := by
  rw [complete, h]

theorem complete_error {s : State} {e : DecodeError} (h : decode s.cmd = .error e)
    (hb : s.busy = true) : complete s = .next (s.raiseFault .illegalCmd) := by
  rw [complete, h]
  exact completeWith_error s .illegalCmd _ hb

/-- The engine's step with `BUSY = 1` goes on. -/
theorem complete_total (s : State) (h : s.busy = true) : ∃ t, complete s = .next t := by
  rcases hd : decode s.cmd with e | i
  · exact ⟨_, complete_error hd h⟩
  · rw [complete_ok hd]; exact exec_total i s h

/-- Everything the engine's step leaves alone. -/
theorem complete_frame {s t : State} (h : complete s = .next t) :
    s.busy = true ∧ t.busy = false ∧ t.qt = s.qt ∧ t.zz = s.zz ∧ t.cmd = s.cmd ∧ t.host = s.host ∧
      t.reads = s.reads ∧ t.lat = s.lat ∧ t.draws = s.draws := by
  unfold complete at h
  split at h
  · rename_i i _
    obtain ⟨hb, ⟨c, -, rfl⟩ | ⟨-, rfl⟩⟩ := exec_cases h
    · exact ⟨hb, by simp⟩
    · obtain ⟨h1, -, -, h2⟩ := commandResult_frame i s
      exact ⟨hb, h1, h2⟩
  · obtain ⟨hb, ⟨c, -, rfl⟩ | ⟨x, hx, -⟩⟩ := completeWith_cases h
    · exact ⟨hb, by simp⟩
    · cases hx

/-- The engine moves only with `BUSY = 1`. -/
theorem busy_of_engine {s : State} (h : s.nextMove = .engine) : s.busy = true := by
  unfold State.nextMove at h
  split at h
  · split at h
    · assumption
    · cases h
  · split at h
    · cases h
    · rename_i hb; simpa using hb

/-! ### Which agent moves next -/

theorem locate_eq_status_iff : ∀ a : WordAddr, locate a = .status ↔ a = 0x001 := by decide +kernel

theorem isStatusRead_read (a : WordAddr) : isStatusRead (.read a) = decide (a = 0x001) := by
  simp only [isStatusRead, locate_eq_status_iff]

theorem nextMove_of_idle {s : State} {e : HostEvent} {rest : List HostEvent} (hb : s.busy = false)
    (hh : s.host = e :: rest) : s.nextMove = .host e rest := by
  simp [State.nextMove, hh, hb]

theorem nextMove_of_lat_zero {s : State} (hb : s.busy = true) (hl : s.lat = 0) : s.nextMove = .engine := by
  unfold State.nextMove
  rcases s.host with _ | ⟨e, rest⟩ <;> simp [hb, hl]

theorem nextMove_of_status_read {s : State} {e : HostEvent} {rest : List HostEvent} (hb : s.busy = true)
    (hl : s.lat ≠ 0) (hh : s.host = e :: rest) (he : isStatusRead e = true) :
    s.nextMove = .host e rest := by
  simp [State.nextMove, hh, hb, hl, he]

/-- The hold: a transfer that is no `STATUS` read waits for the engine (R43), unless a hard reset follows. -/
theorem nextMove_of_held {s : State} {e : HostEvent} {rest : List HostEvent} (hb : s.busy = true)
    (hh : s.host = e :: rest) (hs : isStatusRead e = false) (he : e ≠ .hardReset)
    (hr : ∀ r, rest ≠ .hardReset :: r) : s.nextMove = .engine := by
  unfold State.nextMove
  simp only [hh, hb, hs, he]
  rcases rest with _ | ⟨x, r⟩
  · simp
  · cases x <;> simp at hr ⊢

/-- Everything a move of the host can be: with `BUSY = 0` its next event; with `BUSY = 1` and latency left a
`STATUS` read, a hard reset, or a hard reset that abandons the transfer held before it. -/
theorem nextMove_host_cases {s : State} {e : HostEvent} {rest : List HostEvent}
    (h : s.nextMove = .host e rest) :
    (s.host = e :: rest ∧
      (s.busy = false ∨ (s.lat ≠ 0 ∧ (isStatusRead e = true ∨ e = .hardReset)))) ∨
    ∃ held, s.host = held :: .hardReset :: rest ∧ e = .hardReset ∧ s.busy = true ∧ s.lat ≠ 0 := by
  unfold State.nextMove at h
  split at h
  · split at h <;> cases h
  · rename_i hh
    split_ifs at h with hb hl hs hr
    · cases h; exact .inl ⟨hh, .inl hb⟩
    · cases h; exact .inl ⟨hh, .inr ⟨hl, .inl hs⟩⟩
    · cases h; exact .inl ⟨hh, .inr ⟨hl, .inr hr⟩⟩
    · split at h
      · cases h; exact .inr ⟨_, hh, rfl, by simpa using hb, hl⟩
      · cases h

/-- Everything a step of the machine can be. -/
theorem step_cases {s t : State} (h : step s = .next t) :
    (s.nextMove = .idle ∧ t = s) ∨ (s.nextMove = .engine ∧ complete s = .next t) ∨
      ∃ e rest, s.nextMove = .host e rest ∧ t = s.perform e rest := by
  unfold step at h
  split at h
  · exact .inl ⟨‹_›, (Host.Outcome.next.inj h).symm⟩
  · exact .inr (.inl ⟨‹_›, h⟩)
  · exact .inr (.inr ⟨_, _, ‹_›, (Host.Outcome.next.inj h).symm⟩)

end Sys2Proof.Machine
end

