-- ==== Sys2Proof/Machine/AsmText.lean ====
section
/-! DEFINITION. The written form of a host program (`30_encoding.md` R55 to R57): a line of text to a
`HostLine`. What the rules leave open about blanks is fixed in log entry 16. -/

namespace Sys2Proof.Machine

/-- A piece of a line: a run of characters, or a comma. -/
inductive Token where
  | word (cs : List Char)
  | comma
  deriving DecidableEq, Repr

/-- The word read so far, if any. -/
def flushWord (acc : List Char) : List Token := if acc.isEmpty then [] else [.word acc]

/-- The tokens of a line; text after `;` is a comment (R55). -/
def lexLine (acc : List Char) : List Char → List Token
  | [] => flushWord acc
  | c :: cs =>
    if c = ';' then flushWord acc
    else if c = ',' then flushWord acc ++ .comma :: lexLine [] cs
    else if c = ' ' ∨ c = '\t' then flushWord acc ++ lexLine [] cs
    else lexLine (acc ++ [c]) cs

/-- The value of a digit in base 16. -/
def digitValue (c : Char) : Option Nat :=
  let n := c.toNat
  if 48 ≤ n ∧ n ≤ 57 then some (n - 48)
  else if 65 ≤ n ∧ n ≤ 70 then some (n - 55)
  else if 97 ≤ n ∧ n ≤ 102 then some (n - 87)
  else none

/-- The value of a run of digits in a base. -/
def digitsValue (base : Nat) (acc : Nat) : List Char → Option Nat
  | [] => some acc
  | c :: cs =>
    match digitValue c with
    | some d => if d < base then digitsValue base (base * acc + d) cs else none
    | none => none

/-- A number, decimal or `0x` hexadecimal (R55). -/
def numberOf (cs : List Char) : Option Nat :=
  match cs with
  | [] => none
  | '0' :: 'x' :: ds => if ds.isEmpty then none else digitsValue 16 0 ds
  | ds => digitsValue 10 0 ds

/-- A number that fits `n` bits. -/
def bitsOf (n : Nat) (cs : List Char) : Option (BitVec n) :=
  (numberOf cs).bind fun v => if v < 2 ^ n then some (BitVec.ofNat n v) else none

/-- A buffer name `F0`, `F1`, `Q0`, `Q1` (R55). -/
def bufNameOf (cs : List Char) : Option BufName :=
  match cs with
  | ['F', '0'] => some (.f 0)
  | ['F', '1'] => some (.f 1)
  | ['Q', '0'] => some (.q 0)
  | ['Q', '1'] => some (.q 1)
  | _ => none

/-- A mnemonic of R52. -/
def mnemonicOf (cs : List Char) : Option Mnemonic :=
  if cs = "FDCT".toList then some .fdct
  else if cs = "IDCT".toList then some .idct
  else if cs = "QUANT".toList then some .quant
  else if cs = "DEQUANT".toList then some .dequant
  else if cs = "ZZF".toList then some .zzf
  else if cs = "ZZI".toList then some .zzi
  else none

/-- The words of a list separated by commas. -/
def commaList : List Token → Option (List (List Char))
  | [] => none
  | .comma :: _ => none
  | [.word w] => some [w]
  | .word w :: .comma :: ts => (commaList ts).map (w :: ·)
  | .word _ :: .word _ :: _ => none

/-- A comma list of exactly 64 numbers of `n` bits. -/
def blockOf (n : Nat) (ts : List Token) : Option (Block (BitVec n)) :=
  ((commaList ts).bind fun ws => ws.mapM (bitsOf n)).bind fun l =>
    if l.length = 64 then some (Vector.ofFn fun i : Elem => l.getD i.val 0) else none

/-- A directive without operands or a pseudo-command (R56, R57). -/
def plainLineOf (cs : List Char) : Option HostLine :=
  if cs = "ENCBLK".toList then some .encblk
  else if cs = "DECBLK".toList then some .decblk
  else if cs = "WAIT".toList then some .wait
  else if cs = "SRST".toList then some .srst
  else if cs = "CLRSAT".toList then some .clrsat
  else none

/-- `LDF Fn, …` and `LDQ Qn, …` (R57). -/
def loadLineOf (cs : List Char) (n : BufName) (ts : List Token) : Option HostLine :=
  match n with
  | .f n => if cs = "LDF".toList then (blockOf 32 ts).map (.ldf n) else none
  | .q n => if cs = "LDQ".toList then (blockOf 8 ts).map (.ldq n) else none

/-- A line with two operands: `WR a, w`, or a command (R55, R57). -/
def pairLineOf (cs a b : List Char) : Option HostLine :=
  if cs = "WR".toList then
    (bitsOf 10 a).bind fun a => (bitsOf 32 b).map fun w => .wr a w
  else
    (mnemonicOf cs).bind fun m =>
      (bufNameOf a).bind fun d => (bufNameOf b).bind fun s =>
        let c : AsmCommand := { mnemonic := m, dst := d, src := s }
        if c.wf then some (.command c) else none

/-- The line of a list of tokens; `RD a` may show the expected value after `->` (R57). -/
def lineOfTokens (ts : List Token) : Option HostLine :=
  match ts with
  | [.word cs] => plainLineOf cs
  | [.word cs, .word a] => if cs = "RD".toList then (bitsOf 10 a).map .rd else none
  | [.word cs, .word a, .word r, .word _] =>
    if cs = "RD".toList ∧ r = "->".toList then (bitsOf 10 a).map .rd else none
  | [.word cs, .word a, .comma, .word b] => pairLineOf cs a b
  | .word cs :: ts =>
    if cs = "LDQT".toList then (blockOf 32 ts).map .ldqt
    else
      match ts with
      | .word n :: .comma :: ts' => (bufNameOf n).bind fun n => loadLineOf cs n ts'
      | _ => none
  | _ => none

/-- A line of text: `some []` for one that holds only a comment or nothing, none for a syntax error. -/
def parseLine (text : String) : Option (List HostLine) :=
  match lexLine [] text.toList with
  | [] => some []
  | ts => (lineOfTokens ts).map fun l => [l]

/-- The host transfers of a program given as lines of text. -/
def assembleText (lines : List String) : Option (List HostEvent) :=
  ((lines.mapM parseLine).map List.flatten).bind assembleAll

end Sys2Proof.Machine
end

