-- ==== Sys2Proof/Tests/Slice0.lean ====
section
/-! SUPPORT. The model's own tests: the smoke tests of WellFormed, decoding against words written out from
the encoding of `30_encoding.md` R50 and R52, one step of each command against the vectors of
`95_test_vectors.md`, and a witness for the hypotheses of every statement. Every expected value is the
spec's. -/

namespace Sys2Proof.Tests

open Sys2Proof Sys2Proof.Machine

/-! ### WellFormed: an ill-formed term for each check -/

def legalFields : CommandFields := { op := 1, src := 0, rz1 := 0, dst := 1, rz2 := 0 }

theorem test_wf_accepts : legalFields.wf = true := by decide
theorem test_wf_refuses_op_zero : { legalFields with op := 0 }.wf = false := by decide
theorem test_wf_refuses_op_seven : { legalFields with op := 7 }.wf = false := by decide
theorem test_wf_refuses_op_fifteen : { legalFields with op := 15 }.wf = false := by decide
theorem test_wf_refuses_rz1 : { legalFields with rz1 := 1 }.wf = false := by decide
theorem test_wf_refuses_rz2 : { legalFields with rz2 := 1 }.wf = false := by decide
theorem test_asm_refuses_quant_F0_F1 :
    AsmCommand.wf { mnemonic := .quant, dst := .f 0, src := .f 1 } = false := by decide
theorem test_asm_refuses_zzf_F0_Q1 :
    AsmCommand.wf { mnemonic := .zzf, dst := .f 0, src := .q 1 } = false := by decide
theorem test_asm_refuses_zzi_Q0_F1 :
    AsmCommand.wf { mnemonic := .zzi, dst := .q 0, src := .f 1 } = false := by decide
theorem test_asm_refuses_fdct_Q0_F0 :
    AsmCommand.wf { mnemonic := .fdct, dst := .q 0, src := .f 0 } = false := by decide
theorem test_asm_refuses_idct_F0_Q0 :
    AsmCommand.wf { mnemonic := .idct, dst := .f 0, src := .q 0 } = false := by decide
theorem test_asm_refuses_dequant_F0_F0 :
    AsmCommand.wf { mnemonic := .dequant, dst := .f 0, src := .f 0 } = false := by decide
theorem test_asm_accepts : AsmCommand.wf { mnemonic := .quant, dst := .q 0, src := .f 1 } = true := by decide

/-! ### Decoding: words from the format of R50 (`RZ2`, `DST`, `RZ1`, `SRC`, `OP`) -/

theorem test_decode_fdct :
    decodeTableWord 32 0b00000000000000000000000_1_000_0_0001 = some (.fdct 1 0) := by decide
theorem test_decode_idct :
    decodeTableWord 32 0b00000000000000000000000_1_000_0_0010 = some (.idct 1 0) := by decide
theorem test_decode_quant :
    decodeTableWord 32 0b00000000000000000000000_0_000_1_0011 = some (.quant 0 1) := by decide
theorem test_decode_dequant :
    decodeTableWord 32 0b00000000000000000000000_0_000_1_0100 = some (.dequant 0 1) := by decide
theorem test_decode_zzf :
    decodeTableWord 32 0b00000000000000000000000_1_000_1_0101 = some (.zzf 1 1) := by decide
theorem test_decode_zzi :
    decodeTableWord 32 0b00000000000000000000000_0_000_0_0110 = some (.zzi 0 0) := by decide
theorem test_decode_op_zero : decodeTableWord 32 0x00000110 = none := by decide
theorem test_decode_op_seven : decodeTableWord 32 0x00000007 = none := by decide
theorem test_decode_rz1 : decodeTableWord 32 0x00000021 = none := by decide
theorem test_decode_rz2 : decodeTableWord 32 0x80000001 = none := by decide
theorem test_encode_words :
    encode (.fdct 1 1) = 0x111 ∧ encode (.idct 0 1) = 0x012 ∧ encode (.quant 1 0) = 0x103 ∧
      encode (.dequant 0 1) = 0x014 ∧ encode (.zzf 1 0) = 0x105 ∧ encode (.zzi 1 1) = 0x116 := by decide

/-! ### Numbers (`00_scope.md` R5 to R8; `95_test_vectors.md` 2.2 to 2.4) -/

theorem test_classify_special : classify 0x7FC00000 = .nan ∧ classify 0x7F800001 = .nan ∧
    classify 0x7F800000 = .infinite false ∧ classify 0xFF800000 = .infinite true := by decide +kernel
theorem test_fval : fval 0x42900000 = 72 ∧ fval 0xC0FE0000 = -(127 / 16) ∧ fval 0x80000000 = 0 ∧
    fval 0x00000001 = 1 / 2 ^ 149 ∧ fval 0x4B800001 = 16777218 := by decide +kernel
theorem test_range : overRange 0x4B800000 = false ∧ overRange 0xCB800001 = true ∧
    overRange 0x7F7FFFFF = true ∧ overRange 0x00000001 = false := by decide
theorem test_fencInt : fencInt 0 = 0 ∧ fencInt (-1) = 0xBF800000 ∧ fencInt 576 = 0x44100000 ∧
    fencInt 8322945 = 0x4AFDFF02 ∧ fencInt (-8388480) = 0xCAFFFF00 ∧ fencInt 16777216 = 0x4B800000 := by
  decide
theorem test_rha : rha (5 / 2) = 3 ∧ rha (-(5 / 2)) = -3 ∧ rha (-(1 / 2)) = -1 ∧ rha (127 / 256) = 0 := by
  decide +kernel
theorem test_quant_boundaries : quant 40 16 = 3 ∧ quant 2032 16 = 127 ∧ quant 2040 16 = 127 ∧
    quant (-2048) 16 = -128 ∧ quant (-2056) 16 = -128 ∧ quotient 2040 16 = 128 ∧
    quotient (-2056) 16 = -129 ∧ quotient (32639 / 16) 16 = 127 := by decide +kernel
theorem test_sint8_enc8 : sint8 0x80 = -128 ∧ sint8 0x7F = 127 ∧ sint8 0xFF = -1 ∧
    enc8 (-128) = 0x80 ∧ enc8 (-31) = 0xE1 := by decide
theorem test_zigzag_inverse : ∀ k : Elem, defaultZigzag[defaultZigzagInverse[k]] = k := by decide +kernel

/-! ### One step of each command -/

/-- An engine about to complete the command word `w`, with 16 in every divisor. -/
def ready (w : Nat) : State :=
  { State.reset.withFetchWord 32 w with qt := Vector.replicate 64 16 }

/-- The next state of an outcome, or the state given. -/
def after (o : Host.Outcome State Fault Refusal) (s : State) : State :=
  match o with
  | .next t => t
  | .fault _ => s
  | .refused _ => s

/-- `step` from `s`, its next state. -/
def stepped (s : State) : State := after (step s) s

def withF (s : State) (n : BufIdx) (B : FBlock) : State := { s with fbuf := s.fbuf.set n B }
def withQ (s : State) (n : BufIdx) (B : QBlock) : State := { s with qbuf := s.qbuf.set n B }

def zeros : FBlock := Vector.replicate 64 0
def bytes : QBlock := Vector.ofFn fun i => BitVec.ofNat 8 i.val

theorem test_fdct_nan : (stepped (withF (ready 0x101) 0 (zeros.set 5 0x7FC00000))).statusWord = 0x22 := by
  decide
theorem test_fdct_runs : (stepped (ready 0x101)).statusWord = 0x00 ∧
    (stepped (withF (ready 0x101) 0 (zeros.set 0 0x4B800001))).statusWord = 0x32 := by decide
theorem test_idct_nan_before_range :
    (stepped (withF (ready 0x102) 0 ((zeros.set 0 0x7149F2CA).set 1 0x7FC00000))).statusWord = 0x22 := by
  decide
theorem test_idct_runs : (stepped (withF (ready 0x102) 0 (zeros.set 0 0xCB800000))).statusWord = 0x00 := by
  decide
theorem test_quant_uniform : (stepped (withF (ready 0x013) 1 (zeros.set 0 0x44100000))).qbuf[0] =
    (Vector.replicate 64 (0x00 : Byte)).set 0 0x24 := by decide +kernel
theorem test_quant_clamps : (stepped (withF (ready 0x003) 0 (zeros.set 7 0x45000000))).statusWord = 0x04 ∧
    (stepped (withF (ready 0x003) 0 (zeros.set 7 0xC5000000))).statusWord = 0x00 := by decide +kernel
theorem test_dequant_values : (stepped (withQ (ready 0x014) 1 ((bytes.set 0 0x24).set 1 0x80))).fbuf[0][0] =
    0x44100000 ∧
    (stepped (withQ (ready 0x014) 1 ((bytes.set 0 0x24).set 1 0x80))).fbuf[0][1] = 0xC5000000 := by decide
theorem test_dequant_zero_divisor :
    (stepped { ready 0x004 with qt := (Vector.replicate 64 16).set 63 0 }).statusWord = 0x42 := by decide
theorem test_zzf_word : (stepped (withQ (ready 0x105) 0 bytes)).hostRead 0x211 = 0x0A030209 := by decide
theorem test_zzf_in_place : (stepped (withQ (ready 0x005) 0 bytes)).hostRead 0x20F = 0x3F3E372F := by decide
theorem test_zzi_word : (stepped (withQ (ready 0x106) 0 bytes)).hostRead 0x210 = 0x06050100 := by decide
theorem test_zzi_in_place : (stepped (withQ (ready 0x006) 0 bytes)).hostRead 0x200 = 0x06050100 := by decide
theorem test_illegal_word : (stepped (ready 0x007)).statusWord = 0x12 ∧
    (stepped (ready 0x007)).hostRead 0x000 = 0x007 := by decide

/-! ### The host port (`95_test_vectors.md` 2.6, 2.7) -/

/-- The reset engine with a host program. -/
def hosted (l : List HostEvent) : State := { State.reset with host := l }

theorem test_q_write_order : ((State.reset.hostWrite 0x200 0x04030201).qbuf[0][0] = 0x01) ∧
    ((State.reset.hostWrite 0x21F 0x80FF7F00).qbuf[1][63] = 0x80) := by decide
theorem test_qt_low_half : (State.reset.hostWrite 0x040 0x12345678).hostRead 0x040 = 0x00005678 := by decide
theorem test_zz_read_only : (State.reset.hostWrite 0x082 0x0000003F).hostRead 0x082 = 0x00000005 ∧
    State.reset.hostRead 0x0BF = 0x0000003F := by decide
theorem test_status_read_only : State.reset.hostWrite 0x001 0xFFFFFFFF = State.reset := by decide
theorem test_f_last_word : (State.reset.hostWrite 0x17F 0x7FC00000).hostRead 0x17F = 0x7FC00000 := by decide
theorem test_accept : (stepped (hosted [.write 0x000 0x101])).busy = true ∧
    (stepped (hosted [.write 0x000 0x101])).cmd = 0x101 := by decide
theorem test_drop_while_faulted :
    stepped { hosted [.write 0x000 0x105] with fault := true, cause := 4, cmd := 0x013 } =
      { hosted [] with fault := true, cause := 4, cmd := 0x013 } := by decide
theorem test_clrsat_keeps_fault :
    ({ State.reset with fault := true, cause := 4, qsat := true }.hostWrite 0x002 0x2).statusWord = 0x42 := by
  decide
theorem test_srst : ({ State.reset with fault := true, cause := 4, qsat := true, cmd := 3 }.hostWrite
    0x002 0xFFFFFFFF) = State.reset := by decide
theorem test_held_read : (stepped { hosted [.read 0x140] with busy := true, cmd := 0x007, lat := 3 }).host =
    [.read 0x140] := by decide
theorem test_status_read_not_held :
    (stepped { hosted [.read 0x001] with busy := true, cmd := 0x101, lat := 3 }).reads = [0x00000001] := by
  decide
theorem test_wait_leaves : (stepped (hosted [.wait, .read 0x000])).host = [.read 0x000] := by decide
theorem test_idle : step State.reset = .next State.reset := rfl
theorem test_hard_reset_abandons :
    (stepped { hosted [.read 0x140, .hardReset] with busy := true, cmd := 0x101, lat := 1 }).statusWord =
      0 := by decide

/-! ### The assembler (`30_encoding.md` R55 to R57) -/

theorem test_asm_text : assembleText ["FDCT F1, F0 ; forward", "", "RD 0x001 -> 0x00000042", "SRST", "DECBLK"] =
    some [.write 0x000 0x101, .read 0x001, .write 0x002 0x1, .write 0x000 0x106, .write 0x000 0x014,
      .write 0x000 0x102] := by decide
theorem test_asm_syntax_error : parseLine "QUANT F0, F1" = none ∧ parseLine "LDQT 16" = none := by decide

/-! ### Witnesses: states and operands that meet the hypotheses of the statements -/

theorem witness_EngineStepRunsDecodedCommand :
    (ready 0x101).busy = true ∧ decode (ready 0x101).cmd = .ok (.fdct 1 0) ∧ (ready 0x101).host = [] := by
  exact ⟨rfl, rfl, rfl⟩
theorem witness_EngineStepRunsDecodedCommand_held :
    ∃ s : State, s.busy = true ∧ decode s.cmd = .ok (.zzi 0 1) ∧ s.lat ≠ 0 ∧
      ∃ e rest, s.host = e :: rest ∧ e ≠ .read 0x001 ∧ e ≠ .wait ∧ e ≠ .hardReset ∧
        ∀ rest', rest ≠ .hardReset :: rest' :=
  ⟨{ hosted [.read 0x140] with busy := true, cmd := 0x016, lat := 1 }, rfl, rfl, by decide,
    .read 0x140, [], rfl, by decide, by decide, by decide, by simp⟩
theorem witness_CompleteEnabledExactlyWhenBusy :
    State.reset.busy = false ∧ (ready 0x101).busy = true := by decide
theorem witness_IllegalWordsFault : State.reset.busy = false ∧ State.reset.fault = false ∧
    decode 0x80000001 = .error .rz2NotZero ∧ decode 0x7 = .error .opUnused := ⟨rfl, rfl, rfl, rfl⟩

theorem reset_inv : State.reset.Inv :=
  { busy_not_fault := by decide
    cause_zero_iff := by decide
    cause_le := by decide
    zigzag := zigzagBijective_default }

theorem witness_StepKeepsInvariant : State.reset.Inv ∧ ∃ t, step State.reset = .next t :=
  ⟨reset_inv, _, rfl⟩

/-- A block at the edge of the operand check: `2^24` in one element (R67). -/
def edgeBlock : FBlock := zeros.set 0 0x4B800000

theorem witness_TransformsComplete : ∃ s : State, s.busy = true ∧
    (∀ j : Elem, finite s.fbuf[(0 : BufIdx)][j] = true ∧ |fval s.fbuf[(0 : BufIdx)][j]| ≤ 2 ^ 24) ∧
    |fval s.fbuf[(0 : BufIdx)][0]| = 2 ^ 24 :=
  ⟨withF (ready 0x101) 0 edgeBlock, rfl, by decide +kernel, by decide +kernel⟩
theorem witness_TransformAccuracy :
    (∀ j : Elem, finite edgeBlock[j] = true ∧ |fval edgeBlock[j]| ≤ 2 ^ 24) ∧
      (∀ j : Elem, |fval edgeBlock[j]| ≤ 2 ^ 24) ∧ ∃ j : Elem, |fval edgeBlock[j]| = 2 ^ 24 := by
  decide +kernel
theorem witness_OperandCheck_nonfinite : ∃ s : State, s.busy = true ∧
    ∃ j : Elem, finite s.fbuf[(0 : BufIdx)][j] = false :=
  ⟨withF (ready 0x101) 0 (zeros.set 63 0x7F800000), rfl, 63, by decide⟩
theorem witness_OperandCheck_range : ∃ s : State, s.busy = true ∧
    (∀ j : Elem, finite s.fbuf[(0 : BufIdx)][j] = true) ∧
    ∃ j : Elem, 2 ^ 24 < |fval s.fbuf[(0 : BufIdx)][j]| :=
  ⟨withF (ready 0x101) 0 (zeros.set 0 0xCB800001), rfl, by decide, by decide +kernel⟩
theorem witness_QuantCompletes : ∃ s : State, s.busy = true ∧ s.fault = false ∧
    (∀ j : Elem, finite s.fbuf[(0 : BufIdx)][j] = true) ∧ (∀ j : Elem, s.qt[j] ≠ 0) ∧
    127 < rha (fval s.fbuf[(0 : BufIdx)][(7 : Elem)] / (s.qt[(7 : Elem)].toNat : ℚ)) :=
  ⟨withF (ready 0x003) 0 (zeros.set 7 0x45000000), rfl, rfl, by decide, by decide, by decide +kernel⟩
theorem witness_DequantCompletes : ∃ s : State, s.busy = true ∧ ∀ j : Elem, s.qt[j] ≠ 0 :=
  ⟨ready 0x004, rfl, by decide⟩
theorem witness_ReordersComplete : ∃ s : State, s.busy = true ∧ ZigzagBijective s.zz ∧
    s.zz = defaultZigzag :=
  ⟨ready 0x105, rfl, zigzagBijective_default, rfl⟩
theorem witness_CommandFrame : ∃ s t : State, exec (.zzf 1 0) s = .next t ∧
    (∀ j : Elem, (0x140 : WordAddr).toNat = 0x100 + 64 * (0 : BufIdx).val + j.val → writesF (.zzf 1 0) = false) :=
  ⟨ready 0x105, _, rfl, fun _ _ => rfl⟩
theorem witness_QuantErrorBound : (16 : Divisor) ≠ 0 ∧ -128 ≤ rha (2039 / (16 : Divisor).toNat) ∧
    rha (2039 / (16 : Divisor).toNat) ≤ 127 ∧ 127 < rha (2040 / (16 : Divisor).toNat) ∧
    rha (-2056 / (16 : Divisor).toNat) < -128 := by decide +kernel
theorem witness_SaturationFlag : ∃ s t : State, exec (.quant 0 0) s = .next t ∧ t.fault = false ∧
    t.qsat = true :=
  ⟨withF (ready 0x003) 0 (zeros.set 7 0x45000000), _,
    exec_result (.quant 0 0) _ rfl (by decide +kernel), by decide +kernel, by decide +kernel⟩
theorem witness_OneCauseLowestCode : ∃ s : State, s.busy = true ∧ decode s.cmd = .ok (.quant 0 0) ∧
    FaultCondition (.quant 0 0) s .operandNonfinite ∧ FaultCondition (.quant 0 0) s .zeroDivisor :=
  ⟨{ withF (ready 0x003) 0 (zeros.set 0 0x7FC00000) with qt := (Vector.replicate 64 16).set 63 0 }, rfl, rfl,
    ⟨0, by decide⟩, ⟨63, by decide⟩⟩
theorem witness_OneCauseLowestCode_illegal : ∃ s : State, s.busy = true ∧ ∃ e, decode s.cmd = .error e :=
  ⟨ready 0x021, rfl, .rz1NotZero, rfl⟩
theorem witness_FaultEntry : ∃ s t : State, s.fault = false ∧ complete s = .next t ∧ t.fault = true :=
  ⟨ready 0x007, _, rfl, rfl, rfl⟩
theorem witness_FaultMatrix : ∃ s t : State, s.fault = false ∧ exec (.dequant 0 0) s = .next t ∧
    t.fault = true ∧ mayRaise (.dequant 0 0) .zeroDivisor = true :=
  ⟨State.reset.withFetchWord 32 0x004, _, rfl,
    exec_faults (.dequant 0 0) _ rfl .zeroDivisor (by decide), rfl, rfl⟩
theorem witness_ZeroDivisor : ∃ s : State, s.busy = true ∧ (∃ j : Elem, s.qt[j] = 0) ∧
    ∀ j : Elem, finite s.fbuf[(0 : BufIdx)][j] = true :=
  ⟨{ ready 0x003 with qt := (Vector.replicate 64 16).set 63 0 }, rfl, by decide, by decide⟩
theorem witness_FaultedDropsCommands : ∃ (s : State) (w : Word) (rest : List HostEvent),
    s.fault = true ∧ s.busy = false ∧ s.host = .write 0x000 w :: rest :=
  ⟨{ hosted [.write 0x000 0x105] with fault := true, cause := 4 }, 0x105, [], rfl, rfl, rfl⟩
theorem witness_OnlyResetLeavesFault : ∃ s t : State, s.Inv ∧ s.fault = true ∧ step s = .next t ∧
    t.fault = false :=
  ⟨{ hosted [.write 0x002 0x1] with fault := true, cause := 4 }, _,
    { busy_not_fault := by decide, cause_zero_iff := by decide, cause_le := by decide,
      zigzag := zigzagBijective_default }, rfl, rfl, by decide⟩
theorem witness_HostReadMap : (0x07F : WordAddr).toNat = 0x040 + (63 : Elem).val ∧
    (0x0BF : WordAddr).toNat = 0x080 + (63 : Elem).val ∧
    (0x17F : WordAddr).toNat = 0x100 + 64 * (1 : BufIdx).val + (63 : Elem).val ∧
    (0x21F : WordAddr).toNat = 0x200 + 16 * (1 : BufIdx).val + (15 : Fin 16).val ∧
    0x220 ≤ (0x3FF : WordAddr).toNat ∧ (hosted [.read 0x100]).host = .read 0x100 :: [] ∧
    (hosted [.read 0x100]).busy = false := by decide
theorem witness_HostReadMap_busy : ∃ s : State, s.host = .read 0x001 :: [] ∧ s.busy = true ∧ s.lat ≠ 0 :=
  ⟨{ hosted [.read 0x001] with busy := true, lat := 1 }, rfl, rfl, by decide⟩
theorem witness_HostWriteMap : (0x1 : Word).getLsbD 0 = true ∧ (0x2 : Word).getLsbD 0 = false ∧
    (0x2 : Word).getLsbD 1 = true ∧ (0xFFFFFFFC : Word).getLsbD 0 = false ∧
    (0xFFFFFFFC : Word).getLsbD 1 = false ∧ (hosted [.write 0x07F 1]).host = .write 0x07F 1 :: [] ∧
    (hosted [.write 0x07F 1]).fault = false := by decide
theorem witness_WriteReadBack : 0x040 ≤ (0x040 : WordAddr).toNat ∧ (0x07F : WordAddr).toNat ≤ 0x07F ∧
    (0x21F : WordAddr).toNat ≤ 0x21F ∧ (0x041 : WordAddr) ≠ 0x040 := by decide
theorem witness_QWordPacking : (0x200 : WordAddr).toNat = 0x200 + 16 * (0 : BufIdx).val + (0 : Fin 16).val := by
  decide
theorem witness_ReservedAndReadOnly : ∃ s : State, 0x220 ≤ (0x3FF : WordAddr).toNat ∧ s.busy = true ∧
    s.host = .read 0x3FF :: [] ∧ ∀ r, ([] : List HostEvent) ≠ .hardReset :: r :=
  ⟨{ hosted [.read 0x3FF] with busy := true }, by decide, rfl, rfl, by simp⟩
theorem witness_ReservedAndReadOnly_idle : ∃ s : State, (0x003 : WordAddr).toNat ≤ 0x03F ∧ s.busy = false ∧
    s.host = .write 0x003 0xDEADBEEF :: [] :=
  ⟨hosted [.write 0x003 0xDEADBEEF], by decide, rfl, rfl⟩
theorem witness_CtrlOperations : (0xFFFFFFFC : Word).extractLsb' 0 2 = 0 ∧ (0x1 : Word).extractLsb' 0 2 = 1 ∧
    (0x3 : Word).extractLsb' 0 2 = 3 ∧ (0x2 : Word).extractLsb' 0 2 = 2 := by decide
theorem witness_HoldWhileBusy : ∃ s : State, s.busy = true ∧ s.host = .write 0x002 0x1 :: [] ∧
    ∀ r, ([] : List HostEvent) ≠ .hardReset :: r :=
  ⟨{ hosted [.write 0x002 0x1] with busy := true, cmd := 0x101 }, rfl, rfl, by simp⟩
theorem witness_BusyStateIsFrozen : ∃ s t : State, s.busy = true ∧ step s = .next t ∧ t.busy = true :=
  ⟨{ hosted [.wait] with busy := true, lat := 1 }, _, rfl, rfl, rfl⟩
theorem witness_CommandWriteRunsCommand : ∃ s : State, s.busy = false ∧ s.fault = false ∧
    s.host = [commandWrite (.fdct 1 0)] :=
  ⟨hosted [commandWrite (.fdct 1 0)], rfl, rfl, rfl⟩
theorem witness_WaitPolls : ∃ s : State, s.host = .wait :: [] ∧ s.busy = true ∧ s.lat ≠ 0 :=
  ⟨{ hosted [.wait] with busy := true, lat := 1 }, rfl, rfl, by decide⟩
theorem witness_HardResetAbandons : ∃ s : State, s.busy = true ∧ s.lat ≠ 0 ∧
    s.host = .read 0x140 :: .hardReset :: [] :=
  ⟨{ hosted [.read 0x140, .hardReset] with busy := true, lat := 1 }, rfl, by decide, rfl⟩
theorem witness_PseudoCommands : ∃ s : State, s.fault = true ∧ s.busy = false ∧
    s.host = [Instr.quant 0 1, .zzf 1 0].map commandWrite :=
  ⟨{ hosted ([Instr.quant 0 1, .zzf 1 0].map commandWrite) with fault := true, cause := 4 }, rfl, rfl, rfl⟩
theorem witness_LoadDirectives : ∃ (s : State) (ev : List HostEvent), s.busy = false ∧
    assemble (.ldq 0 bytes) = some ev ∧ s.host = ev ++ [.read 0x200] :=
  ⟨hosted (((List.finRange 16).map fun k =>
      .write (BitVec.ofNat 10 (0x200 + 16 * (0 : BufIdx).val + k.val)) (packQ bytes k)) ++ [.read 0x200]),
    _, rfl, rfl, rfl⟩
theorem witness_FencIntExact : |(16777216 : Int)| ≤ 2 ^ 24 ∧ (16777216 : Int) ≠ 0 ∧
    |(-16777216 : Int)| ≤ 2 ^ 24 ∧ finite 0x4B800000 = true ∧ fval 0x4B800000 = 16777216 := by decide +kernel
theorem witness_HardwareRoundTrip : ∃ s : State, s.busy = true ∧
    (∀ j : Elem, finite s.fbuf[(0 : BufIdx)][j] = true ∧ |fval s.fbuf[(0 : BufIdx)][j]| ≤ 128) ∧
    (128 : ℚ) ≤ 2 ^ 24 ∧ 8 * (128 : ℚ) + max (1 / 1000) (128 / 2 ^ 20) ≤ 2 ^ 24 :=
  ⟨withF (ready 0x101) 0 (zeros.set 0 0xC3000000), rfl, by decide +kernel, by decide +kernel,
    by decide +kernel⟩
theorem witness_UniformBlockExample : ∃ s : State, s.busy = true ∧ s.fault = false ∧ s.qsat = false ∧
    (∀ i : Elem, s.fbuf[(0 : BufIdx)][i] = 0x42900000) ∧ ∀ i : Elem, s.qt[i] = 16 :=
  ⟨withF (ready 0x101) 0 (Vector.replicate 64 0x42900000), rfl, rfl, rfl, by decide, by decide⟩

/-- The first and the last address of every range of the map that a statement names (R32, R39). -/
theorem witness_map_edges :
    (0x040 : WordAddr).toNat = 0x040 + (0 : Elem).val ∧ (0x07F : WordAddr).toNat = 0x040 + (63 : Elem).val ∧
    (0x080 : WordAddr).toNat = 0x080 + (0 : Elem).val ∧ (0x0BF : WordAddr).toNat = 0x080 + (63 : Elem).val ∧
    (0x100 : WordAddr).toNat = 0x100 + 64 * (0 : BufIdx).val + (0 : Elem).val ∧
    (0x17F : WordAddr).toNat = 0x100 + 64 * (1 : BufIdx).val + (63 : Elem).val ∧
    (0x200 : WordAddr).toNat = 0x200 + 16 * (0 : BufIdx).val + (0 : Fin 16).val ∧
    (0x21F : WordAddr).toNat = 0x200 + 16 * (1 : BufIdx).val + (15 : Fin 16).val ∧
    (∀ a ∈ [(0x003 : WordAddr), 0x03F, 0x0C0, 0x0FF, 0x180, 0x1FF, 0x220, 0x3FF], locate a = .reserved) ∧
    (∀ a ∈ [(0x040 : WordAddr), 0x07F, 0x080, 0x0BF, 0x100, 0x17F, 0x200, 0x21F], locate a ≠ .reserved) := by
  decide
theorem witness_HostWriteMap_busy : ∃ s : State, s.host = .write 0x040 0x10 :: [.read 0x040] ∧ s.busy = true ∧
    ∀ r, [HostEvent.read 0x040] ≠ .hardReset :: r :=
  ⟨{ hosted [.write 0x040 0x10, .read 0x040] with busy := true, cmd := 0x105 }, rfl, rfl, by simp⟩
theorem witness_HoldWhileBusy_status : ∃ s : State, s.busy = true ∧ s.host = .read 0x001 :: [.wait] ∧
    ∀ r, [HostEvent.wait] ≠ .hardReset :: r :=
  ⟨{ hosted [.read 0x001, .wait] with busy := true, lat := 1 }, rfl, rfl, by simp⟩
theorem witness_QuantErrorBound_qsat : ∃ s t : State, exec (.quant 0 0) s = .next t ∧ t.fault = false ∧
    s.qt[(7 : Elem)] = 16 ∧ fval s.fbuf[(0 : BufIdx)][(7 : Elem)] = 2048 ∧
    127 < rha (2048 / (16 : Divisor).toNat) :=
  ⟨withF (ready 0x003) 0 (zeros.set 7 0x45000000), _,
    exec_result (.quant 0 0) _ rfl (by decide +kernel), by decide +kernel, by decide +kernel,
    by decide +kernel, by decide +kernel⟩
theorem witness_SaturationFlag_kept : ∃ s t : State, s.qsat = true ∧ exec (.zzf 0 0) s = .next t ∧
    ∀ d n, Instr.zzf 0 0 ≠ .quant d n :=
  ⟨{ ready 0x005 with qsat := true }, _, rfl, rfl, by simp⟩
theorem witness_OneCauseLowestCode_none : ∃ s : State, s.busy = true ∧ decode s.cmd = .ok (.dequant 0 0) ∧
    ∀ j : Elem, s.qt[j] ≠ 0 :=
  ⟨ready 0x004, rfl, rfl, by decide⟩
theorem witness_HardResetAbandons_edges : (∃ s : State, s.busy = true ∧ s.lat ≠ 0 ∧ s.host = [.hardReset]) ∧
    ∃ s : State, s.busy = true ∧ s.lat ≠ 0 ∧ s.host = [.write 0x3FF 0, .hardReset] :=
  ⟨⟨{ hosted [.hardReset] with busy := true, lat := 1 }, rfl, by decide, rfl⟩,
    { hosted [.write 0x3FF 0, .hardReset] with busy := true, lat := 1 }, rfl, by decide, rfl⟩

theorem witness_EngineStepRunsDecodedCommand_illegal : ∃ s : State, s.busy = true ∧ s.host = [] ∧
    decode s.cmd = .error .opUnused :=
  ⟨ready 0x00F, rfl, rfl, rfl⟩
theorem witness_ResetColumns : ∃ s : State, s.busy = false ∧ s.host = [.hardReset] :=
  ⟨hosted [.hardReset], rfl, rfl⟩
theorem witness_OnlyResetLeavesFault_reset : ∃ s : State, s.Inv ∧ s.fault = true ∧ s.host = [.hardReset] :=
  ⟨{ hosted [.hardReset] with fault := true, cause := 1 },
    { busy_not_fault := by decide, cause_zero_iff := by decide, cause_le := by decide,
      zigzag := zigzagBijective_default }, rfl, rfl⟩
theorem witness_OnlyResetLeavesFault_kept : ∃ s : State, s.Inv ∧ s.fault = true ∧
    (∀ rest, s.host ≠ .hardReset :: rest) ∧
    ∀ w rest, s.host = .write 0x002 w :: rest → w.getLsbD 0 = false :=
  ⟨{ hosted [.write 0x002 0x2] with fault := true, cause := 4 },
    { busy_not_fault := by decide, cause_zero_iff := by decide, cause_le := by decide,
      zigzag := zigzagBijective_default }, rfl, by simp [hosted],
    by intro w rest h; simp [hosted] at h; rw [← h.1]; decide⟩
theorem witness_ReservedAndReadOnly_ctrl : ∃ s : State, s.busy = true ∧ s.host = [.read 0x002] ∧
    ∀ r, ([] : List HostEvent) ≠ .hardReset :: r :=
  ⟨{ hosted [.read 0x002] with busy := true, cmd := 0x106 }, rfl, rfl, by simp⟩
theorem witness_ReservedAndReadOnly_readOnly : (∃ s : State, s.busy = true ∧ s.host = [.write 0x001 0x1]) ∧
    (∃ s : State, s.busy = true ∧ s.host = [.write 0x080 0x1]) ∧
    ∃ s : State, s.busy = false ∧ s.host = [.write 0x0BF 0x1] :=
  ⟨⟨{ hosted [.write 0x001 0x1] with busy := true }, rfl, rfl⟩,
    ⟨{ hosted [.write 0x080 0x1] with busy := true }, rfl, rfl⟩, hosted [.write 0x0BF 0x1], rfl, rfl⟩
theorem witness_CommandLines : AsmCommand.wf { mnemonic := .zzf, dst := .f 0, src := .q 1 } = false ∧
    AsmCommand.wf { mnemonic := .zzf, dst := .q 0, src := .q 1 } = true := by decide
theorem witness_StatusReadsWhileBusy : ∃ s : State, s.busy = true ∧ 2 ≤ s.lat ∧
    s.host = List.replicate 2 (.read 0x001) ++ [.read 0x140] :=
  ⟨{ hosted [.read 0x001, .read 0x001, .read 0x140] with busy := true, lat := 2 }, rfl, by decide, rfl⟩
theorem witness_StatusReadsWhileBusy_over : ∃ s : State, s.busy = true ∧ s.host = [.read 0x001] ∧ s.lat = 0 :=
  ⟨{ hosted [.read 0x001] with busy := true }, rfl, rfl, rfl⟩

end Sys2Proof.Tests
end

section
/-! PROOF. The numbers of `00_scope.md` sections 6.2 and 6.3: rounding by halves away from zero (R7) and the
binary32 pattern of an integer (R6). -/

namespace Sys2Proof.Machine

/-! ### Rounding (R7) -/

theorem rha_of_nonneg {x : ℚ} (hx : 0 ≤ x) : rha x = ⌊x + 1 / 2⌋ := if_pos hx

theorem rha_of_neg {x : ℚ} (hx : x < 0) : rha x = -⌊-x + 1 / 2⌋ := if_neg hx.not_ge

/-- On non-negative numbers `rha` is Mathlib's `round`, which takes halves up. -/
theorem rha_eq_round {x : ℚ} (hx : 0 ≤ x) : rha x = round x := by
  rw [rha_of_nonneg hx, round_eq]

theorem rha_neg_of_pos {x : ℚ} (hx : 0 < x) : rha (-x) = -rha x := by
  rw [rha_of_neg (neg_lt_zero.mpr hx), neg_neg, rha_of_nonneg hx.le]

/-- At distance one half the rounding of a non-negative number goes up. -/
theorem lt_rha_of_tie {x : ℚ} (hx : 0 ≤ x) (htie : |x - rha x| = 1 / 2) : x < rha x := by
  have hfloor : x + 1 / 2 < (rha x : ℚ) + 1 := by
    rw [rha_of_nonneg hx]; exact Int.lt_floor_add_one _
  rcases eq_or_eq_neg_of_abs_eq htie with h | h <;> linarith

theorem rha_error_of_nonneg {x : ℚ} (hx : 0 ≤ x) :
    |x - rha x| ≤ 1 / 2 ∧ (|x - rha x| = 1 / 2 → |x| < |(rha x : ℚ)|) := by
  refine ⟨rha_eq_round hx ▸ abs_sub_round x, fun htie => ?_⟩
  rw [abs_of_nonneg hx]
  exact (lt_rha_of_tie hx htie).trans_le (le_abs_self _)

/-- The error of `rha x` for `x < 0` is that of `-x`, since `rha` commutes with the change of sign. -/
theorem rha_error (x : ℚ) :
    |x - rha x| ≤ 1 / 2 ∧ (|x - rha x| = 1 / 2 → |x| < |(rha x : ℚ)|) := by
  rcases le_or_gt 0 x with hx | hx
  · exact rha_error_of_nonneg hx
  · have hneg : (rha x : ℚ) = -rha (-x) := by
      rw [← neg_neg x, rha_neg_of_pos (neg_pos.mpr hx), neg_neg, Int.cast_neg]
    have hdist : |x - rha x| = |-x - rha (-x)| := by rw [hneg, ← abs_neg]; ring_nf
    rw [hdist, hneg, abs_neg, ← abs_neg x]
    exact rha_error_of_nonneg (neg_nonneg.mpr hx.le)

/-- Settles O44: the two formulas are `rha`'s branches, and the error of `x` and of `-x` is the same. -/
theorem roundHalfAway : Obligations.RoundHalfAway :=
  ⟨fun x => ⟨rha_of_nonneg, rha_of_neg, rha_error x⟩, by decide +kernel⟩

/-! ### The pattern of an integer (R6) -/

/-- The magnitude of a finite pattern in units of `2^(-150)` (R5). -/
def scaledMag (w : Word) : ℕ :=
  if fexp w = 0 then 2 * ffrac w else (2 ^ 23 + ffrac w) * 2 ^ fexp w

theorem scaledMag_of_subnormal {w : Word} (h : fexp w = 0) : scaledMag w = 2 * ffrac w := if_pos h

theorem scaledMag_of_normal {w : Word} (h : fexp w ≠ 0) :
    scaledMag w = (2 ^ 23 + ffrac w) * 2 ^ fexp w := if_neg h

theorem fval_eq_scaledMag {w : Word} (hw : finite w = true) :
    fval w = signFactor (fsign w) * scaledMag w / 2 ^ 150 := by
  rw [finite_iff] at hw
  by_cases h : fexp w = 0
  · rw [fval_subnormal w h, scaledMag_of_subnormal h]; push_cast; ring
  · rw [fval_normal w h hw, scaledMag_of_normal h]; push_cast; ring

theorem abs_fval_eq_scaledMag {w : Word} (hw : finite w = true) : |fval w| = scaledMag w / 2 ^ 150 := by
  rw [fval_eq_scaledMag hw, abs_div, abs_mul, abs_signFactor, one_mul, Nat.abs_cast,
    abs_of_pos (by positivity : (0 : ℚ) < 2 ^ 150)]

theorem scaledMag_lt (w : Word) : scaledMag w < 2 ^ 24 * 2 ^ fexp w := by
  have hf := ffrac_lt w
  by_cases h : fexp w = 0
  · rw [scaledMag_of_subnormal h, h]; omega
  · rw [scaledMag_of_normal h]; gcongr; omega

/-- The patterns of a larger exponent field are the larger magnitudes. -/
theorem scaledMag_lt_of_fexp_lt {v w : Word} (h : fexp v < fexp w) : scaledMag v < scaledMag w := by
  calc scaledMag v < 2 ^ 24 * 2 ^ fexp v := scaledMag_lt v
    _ = 2 ^ 23 * 2 ^ (fexp v + 1) := by ring
    _ ≤ (2 ^ 23 + ffrac w) * 2 ^ fexp w := by gcongr <;> omega
    _ = scaledMag w := (scaledMag_of_normal (by omega)).symm

theorem fexp_eq_of_scaledMag_eq {v w : Word} (h : scaledMag v = scaledMag w) : fexp v = fexp w := by
  rcases lt_trichotomy (fexp v) (fexp w) with hlt | heq | hgt
  · exact absurd h (scaledMag_lt_of_fexp_lt hlt).ne
  · exact heq
  · exact absurd h (scaledMag_lt_of_fexp_lt hgt).ne'

theorem ffrac_eq_of_scaledMag_eq {v w : Word} (h : scaledMag v = scaledMag w) : ffrac v = ffrac w := by
  have he := fexp_eq_of_scaledMag_eq h
  by_cases h0 : fexp w = 0
  · rw [scaledMag_of_subnormal h0, scaledMag_of_subnormal (he.trans h0)] at h
    omega
  · rw [scaledMag_of_normal h0, scaledMag_of_normal (he ▸ h0), he] at h
    have := Nat.eq_of_mul_eq_mul_right (by positivity) h
    omega

theorem signFactor_injective : Function.Injective signFactor := by
  intro a b; cases a <;> cases b <;> norm_num [signFactor]

/-- A number other than zero has at most one finite pattern. -/
theorem eq_of_fval_eq {v w : Word} (hv : finite v = true) (hw : finite w = true) (h : fval v = fval w)
    (h0 : fval w ≠ 0) : v = w := by
  have hmag : scaledMag v = scaledMag w := by
    have := congrArg (|·|) h
    simp only [abs_fval_eq_scaledMag hv, abs_fval_eq_scaledMag hw] at this
    exact_mod_cast (div_left_inj' (by positivity)).mp this
  have hsign : fsign v = fsign w := by
    rw [fval_eq_scaledMag hw] at h0
    rw [fval_eq_scaledMag hv, fval_eq_scaledMag hw, hmag, div_left_inj' (by positivity)] at h
    refine signFactor_injective (mul_right_cancel₀ ?_ h)
    intro hz; simp [hz] at h0
  rw [eq_packF v, eq_packF w, hsign, fexp_eq_of_scaledMag_eq hmag, ffrac_eq_of_scaledMag_eq hmag]

theorem fencInt_value (n : ℤ) (hn : n.natAbs ≤ 2 ^ 24) :
    finite (fencInt n) = true ∧ fval (fencInt n) = n := by
  obtain ⟨hfin, hval⟩ := Laws.packScaled_spec n 127 hn (by decide) (by decide)
  rw [← Laws.fencInt_eq_packScaled] at hfin hval
  exact ⟨hfin, by rw [hval]; field_simp⟩

/-- The fields of `fenc_int(n)`, where `2^k` is the greatest power of two up to `|n|`. -/
theorem fencInt_fields (n : ℤ) (hn : n.natAbs ≤ 2 ^ 24) (h0 : n ≠ 0) :
    fsign (fencInt n) = decide (n < 0) ∧ fexp (fencInt n) = 127 + n.natAbs.log2 ∧
      (2 ^ 23 + ffrac (fencInt n)) * 2 ^ n.natAbs.log2 = n.natAbs * 2 ^ 23 := by
  obtain ⟨hdiv, hlow, hhigh, hlog⟩ := Laws.int_mantissa n.natAbs (by omega) hn
  have he : 127 + n.natAbs.log2 < 256 := by omega
  have hf : n.natAbs * 2 ^ 23 / 2 ^ n.natAbs.log2 - 2 ^ 23 < 2 ^ 23 := by omega
  rw [fencInt, if_neg h0]
  refine ⟨fsign_packF _ _ _ he hf, fexp_packF _ _ _ he hf, ?_⟩
  rw [ffrac_packF _ _ _ he hf, Nat.add_sub_cancel' hlow, hdiv]

/-- The construction of R6. -/
theorem fencInt_construction (n : ℤ) (hn : n.natAbs ≤ 2 ^ 24) (h0 : n ≠ 0) :
    ∃ k : ℕ, 2 ^ k ≤ |n| ∧ |n| < 2 ^ (k + 1) ∧ k ≤ 24 ∧
      fsign (fencInt n) = decide (n < 0) ∧ fexp (fencInt n) = 127 + k ∧
      ((2 ^ 23 + ffrac (fencInt n) : ℕ) : ℚ) * 2 ^ k = |(n : ℚ)| * 2 ^ 23 := by
  obtain ⟨hsign, hexp, hfrac⟩ := fencInt_fields n hn h0
  obtain ⟨-, -, -, hlog⟩ := Laws.int_mantissa n.natAbs (by omega) hn
  have hlow : 2 ^ n.natAbs.log2 ≤ n.natAbs := Nat.log2_self_le (by omega)
  have hhigh : n.natAbs < 2 ^ (n.natAbs.log2 + 1) := Nat.lt_log2_self
  refine ⟨n.natAbs.log2, ?_, ?_, hlog, hsign, hexp, ?_⟩
  · rw [Int.abs_eq_natAbs]; exact_mod_cast hlow
  · rw [Int.abs_eq_natAbs]; exact_mod_cast hhigh
  · rw [← Int.cast_abs, Int.abs_eq_natAbs]; exact_mod_cast hfrac

/-- Settles O43: the value and the fields come from the construction, and the pattern is the only one
because the magnitude of a finite pattern determines its exponent and fraction. -/
theorem fencIntExact : Obligations.FencIntExact := by
  refine ⟨fun n hn => ?_, by decide⟩
  have hn' : n.natAbs ≤ 2 ^ 24 := by
    rw [Int.abs_eq_natAbs] at hn; exact_mod_cast hn
  obtain ⟨hfin, hval⟩ := fencInt_value n hn'
  refine ⟨hfin, hval, fun h0 w hw hwn => ?_, fencInt_construction n hn'⟩
  exact eq_of_fval_eq hw hfin (hwn.trans hval.symm) (by rw [hval]; exact_mod_cast h0)

end Sys2Proof.Machine
end

section
/-! PROOF. The state invariant of R25: it holds after reset, and every step of the machine keeps it. -/

namespace Sys2Proof.Machine

/-! ### The invariant over the fields it reads -/

/-- Without a fault and with a clear `CAUSE`, only the ROM's contract is left to show. -/
theorem State.Inv.of_not_fault {t : State} (hf : t.fault = false) (hc : t.cause = 0)
    (hz : ZigzagBijective t.zz) : t.Inv where
  busy_not_fault _ := hf
  cause_zero_iff := by simp [hf, hc]
  cause_le := by simp [hc]
  zigzag := hz

/-- A change of state that leaves `FAULT`, `CAUSE` and the ROM alone keeps the invariant if it sets `BUSY`
in no faulted state. -/
theorem State.Inv.of_fault_cause_eq {s t : State} (hs : s.Inv) (hf : t.fault = s.fault)
    (hc : t.cause = s.cause) (hz : t.zz = s.zz) (hb : t.busy = true → s.fault = false) : t.Inv where
  busy_not_fault h := hf.trans (hb h)
  cause_zero_iff := by rw [hc, hf]; exact hs.cause_zero_iff
  cause_le := hc ▸ hs.cause_le
  zigzag := hz ▸ hs.zigzag

theorem State.reset_inv : State.reset.Inv := .of_not_fault rfl rfl zigzagBijective_default

/-! ### The engine's step -/

theorem Cause.code_ne_zero (c : Cause) : c.code ≠ 0#4 := by cases c <;> decide

theorem Cause.code_le_four (c : Cause) : c.code.toNat ≤ 4 := by cases c <;> decide

theorem State.Inv.raiseFault {s : State} (hs : s.Inv) (c : Cause) : (s.raiseFault c).Inv where
  busy_not_fault h := by simp at h
  cause_zero_iff := by simp [c.code_ne_zero]
  cause_le := c.code_le_four
  zigzag := hs.zigzag

theorem State.Inv.commandResult {s : State} (hs : s.Inv) (i : Instr) : (commandResult i s).Inv := by
  obtain ⟨hb, hf, hc, -, hz, -⟩ := commandResult_frame i s
  exact hs.of_fault_cause_eq hf hc hz fun h => by simp [hb] at h

/-- Everything the engine's step can do when it goes on: with `BUSY = 1`, the fault of an illegal word or of
a command's check, or the result of the command. -/
theorem complete_cases {s t : State} (h : complete s = .next t) :
    s.busy = true ∧
      (((∃ e, decode s.cmd = .error e) ∧ t = s.raiseFault .illegalCmd) ∨
        ∃ i, decode s.cmd = .ok i ∧
          ((∃ c, commandCheck i s = some c ∧ t = s.raiseFault c) ∨
            (commandCheck i s = none ∧ t = commandResult i s))) := by
  have hb : s.busy = true := (complete_frame h).1
  refine ⟨hb, ?_⟩
  rcases hd : decode s.cmd with e | i
  · rw [complete_error hd hb] at h
    exact .inl ⟨⟨e, rfl⟩, (Host.Outcome.next.inj h).symm⟩
  · rw [complete_ok hd] at h
    exact .inr ⟨i, rfl, (exec_cases h).2⟩

theorem State.Inv.complete {s t : State} (hs : s.Inv) (h : complete s = .next t) : t.Inv := by
  obtain ⟨-, ⟨-, rfl⟩ | ⟨i, -, ⟨c, -, rfl⟩ | ⟨-, rfl⟩⟩⟩ := complete_cases h
  · exact hs.raiseFault _
  · exact hs.raiseFault c
  · exact hs.commandResult i

/-! ### The host's transfers -/

theorem State.Inv.softReset {s : State} (hs : s.Inv) : s.softReset.Inv := .of_not_fault rfl rfl hs.zigzag

theorem State.Inv.hardReset {s : State} (hs : s.Inv) : s.hardReset.Inv := .of_not_fault rfl rfl hs.zigzag

/-- A command is accepted only with `FAULT = 0`, so `BUSY` is set in no faulted state. -/
theorem State.Inv.writeCmd {s : State} (hs : s.Inv) (w : Word) : (s.writeCmd w).Inv := by
  unfold State.writeCmd
  split_ifs with hf
  · exact hs
  · exact hs.of_fault_cause_eq rfl rfl rfl fun _ => by simpa using hf

theorem State.Inv.writeCtrl {s : State} (hs : s.Inv) (w : Word) : (s.writeCtrl w).Inv := by
  unfold State.writeCtrl
  split_ifs
  · exact hs.softReset
  · exact hs.of_fault_cause_eq rfl rfl rfl hs.busy_not_fault
  · exact hs

/-- Of the locations of the window only `CMD` and `CTRL` reach the fields of the invariant. -/
theorem State.Inv.hostWrite {s : State} (hs : s.Inv) (a : WordAddr) (w : Word) :
    (s.hostWrite a w).Inv := by
  unfold State.hostWrite
  cases locate a with
  | cmd => exact hs.writeCmd w
  | ctrl => exact hs.writeCtrl w
  | status | zz | reserved => exact hs
  | qt | f | q => exact hs.of_fault_cause_eq rfl rfl rfl hs.busy_not_fault

theorem State.Inv.setHost {s : State} (hs : s.Inv) (rest : List HostEvent) :
    State.Inv { s with host := rest } :=
  hs.of_fault_cause_eq rfl rfl rfl hs.busy_not_fault

theorem State.Inv.noteRead {s : State} (hs : s.Inv) (w : Word) : (s.noteRead w).Inv :=
  hs.of_fault_cause_eq rfl rfl rfl hs.busy_not_fault

theorem State.Inv.perform {s : State} (hs : s.Inv) (e : HostEvent) (rest : List HostEvent) :
    (s.perform e rest).Inv := by
  cases e with
  | read a => exact (hs.noteRead _).setHost rest
  | write a w => exact (hs.hostWrite a w).setHost rest
  | wait => exact (hs.noteRead _).setHost _
  | hardReset => exact hs.hardReset.setHost rest

/-! ### The step -/

theorem State.Inv.step {s t : State} (hs : s.Inv) (h : step s = .next t) : t.Inv := by
  obtain ⟨-, rfl⟩ | ⟨-, hc⟩ | ⟨e, rest, -, rfl⟩ := step_cases h
  · exact hs
  · exact hs.complete hc
  · exact hs.perform e rest

/-! ### The zero bits of the `STATUS` word (R18, R25 item 3) -/

theorem State.statusWord_getLsbD_three (s : State) : s.statusWord.getLsbD 3 = false := by
  simp only [State.statusWord, BitVec.getLsbD_append]
  simp

/-- Above bit 3 the word is `CAUSE`, and so 0 where `CAUSE` has no bit. -/
theorem State.statusWord_getLsbD_add_four (s : State) (i : Nat) :
    s.statusWord.getLsbD (i + 4) = s.cause.getLsbD i := by
  simp only [State.statusWord, BitVec.getLsbD_append]
  simpa using BitVec.lt_of_getLsbD

theorem State.statusWord_extractLsb'_high (s : State) : s.statusWord.extractLsb' 8 24 = 0 := by
  ext i hi
  have hcause : s.cause.getLsbD (i + 4) = false := BitVec.getLsbD_of_ge _ _ (by omega)
  have hbit : s.statusWord.getLsbD (8 + i) = false := by
    rw [show 8 + i = i + 4 + 4 by omega, s.statusWord_getLsbD_add_four, hcause]
  simpa using hbit

/-- Settles O9: the reset state, a case of `step_cases` for each move, and the layout of `STATUS`. -/
theorem stepKeepsInvariant : Obligations.StepKeepsInvariant :=
  ⟨State.reset_inv, fun _ _ hs h => hs.step h, fun s =>
    ⟨s.statusWord_getLsbD_three, s.statusWord_extractLsb'_high, fun i => s.qt[i].isLt⟩⟩

end Sys2Proof.Machine
end

section
/-! PROOF. The words the host port reads and writes: the layout of `STATUS` (R18) and of a word of a Q buffer
(R36), and the map of the window (R32, R39, R41, R42). -/

namespace Sys2Proof.Machine

/-! ### Words made of fields -/

theorem toNat_append_eq_mul_add {m n : Nat} (x : BitVec m) (y : BitVec n) :
    (x ++ y).toNat = x.toNat * 2 ^ n + y.toNat := by
  rw [BitVec.toNat_append, ← Nat.shiftLeft_add_eq_or_of_lt y.isLt, Nat.shiftLeft_eq]

theorem State.statusWord_toNat (s : State) : s.statusWord.toNat =
    s.busy.toNat + 2 * s.fault.toNat + 4 * s.qsat.toNat + 16 * s.cause.toNat := by
  simp only [State.statusWord, toNat_append_eq_mul_add, BitVec.toNat_ofBool, BitVec.toNat_ofNat]
  omega

/-! ### The four elements of a Q word (R36) -/

@[simp] theorem qElem_val (k : Fin 16) (j : Fin 4) : (qElem k j).val = 4 * k.val + j.val := rfl

theorem packQ_extract (B : QBlock) (k : Fin 16) (j : Fin 4) :
    (packQ B k).extractLsb' (8 * j.val) 8 = B[qElem k j] := by
  unfold packQ
  fin_cases j
  · exact BitVec.extractLsb'_append_eq_right
  · rw [BitVec.extractLsb'_append_eq_of_le (by decide)]
    exact BitVec.extractLsb'_append_eq_right
  · rw [BitVec.extractLsb'_append_eq_of_le (by decide), BitVec.extractLsb'_append_eq_of_le (by decide)]
    exact BitVec.extractLsb'_append_eq_right
  · rw [BitVec.extractLsb'_append_eq_of_le (by decide), BitVec.extractLsb'_append_eq_of_le (by decide)]
    exact BitVec.extractLsb'_append_eq_left

theorem unpackQ_get (B : QBlock) (k : Fin 16) (w : Word) (j : Fin 4) :
    (unpackQ B k w)[qElem k j] = w.extractLsb' (8 * j.val) 8 := by
  fin_cases j <;> simp [unpackQ]

/-- The elements of the other words of the buffer stay. -/
theorem unpackQ_get_of_ne (B : QBlock) (k : Fin 16) (w : Word) (i : Elem) (h : i.val / 4 ≠ k.val) :
    (unpackQ B k w)[i] = B[i] := by
  have hne : ∀ j : Fin 4, (qElem k j).val ≠ i.val := fun j hj => h (by rw [← hj, qElem_val]; omega)
  simp only [unpackQ, Fin.getElem_fin]
  rw [Vector.getElem_set_ne _ _ (hne 3), Vector.getElem_set_ne _ _ (hne 2),
    Vector.getElem_set_ne _ _ (hne 1), Vector.getElem_set_ne _ _ (hne 0)]

/-- Settles O32: a read packs the four elements and a write unpacks them. -/
theorem qWordPacking : Obligations.QWordPacking := by
  intro s a w n k j ha
  have hloc := locate_q a n k ha
  refine ⟨by rw [ha, qElem_val]; omega, ?_, ?_, rfl⟩
  · rw [hostRead_q s a n k hloc]
    exact packQ_extract _ k j
  · rw [hostWrite_q s a w n k hloc]
    simpa [State.writeQ] using unpackQ_get (s.readQ n) k w j

/-! ### What a read returns -/

/-- The reserved word addresses (R39). -/
theorem locate_reserved_of_ranges {a : WordAddr} (h : (0x003 ≤ a.toNat ∧ a.toNat ≤ 0x03F) ∨
    (0x0C0 ≤ a.toNat ∧ a.toNat ≤ 0x0FF) ∨ (0x180 ≤ a.toNat ∧ a.toNat ≤ 0x1FF) ∨ 0x220 ≤ a.toNat) :
    locate a = .reserved :=
  locate_reserved a (by have := a.isLt; omega)

theorem hostRead_qt_toNat (s : State) (a : WordAddr) (i : Elem) (h : a.toNat = 0x040 + i.val) :
    (s.hostRead a).toNat = s.qt[i].toNat := by
  rw [hostRead_qt s a i (locate_qt a i h), BitVec.toNat_setWidth]
  exact Nat.mod_eq_of_lt (by have := s.qt[i].isLt; omega)

theorem hostRead_zz_toNat (s : State) (a : WordAddr) (i : Elem) (h : a.toNat = 0x080 + i.val) :
    (s.hostRead a).toNat = s.zz[i].val := by
  rw [hostRead_zz s a i (locate_zz a i h), BitVec.toNat_ofNat]
  exact Nat.mod_eq_of_lt (by have := s.zz[i].isLt; omega)

/-! ### What a write does -/

theorem hostWrite_cmd_of_not_fault (s : State) (w : Word) (h : s.fault = false) :
    s.hostWrite 0x000 w = s.accept w := by
  rw [hostWrite_cmd, State.writeCmd, if_neg (ne_true_of_eq_false h)]

theorem hostWrite_cmd_of_fault (s : State) (w : Word) (h : s.fault = true) : s.hostWrite 0x000 w = s := by
  rw [hostWrite_cmd, State.writeCmd, if_pos h]

theorem hostWrite_ctrl_srst (s : State) (w : Word) (h : w.getLsbD 0 = true) :
    s.hostWrite 0x002 w = s.softReset := by
  rw [hostWrite_ctrl, State.writeCtrl, if_pos h]

theorem hostWrite_ctrl_clrsat (s : State) (w : Word) (h0 : w.getLsbD 0 = false) (h1 : w.getLsbD 1 = true) :
    s.hostWrite 0x002 w = s.clrSat := by
  rw [hostWrite_ctrl, State.writeCtrl, if_neg (ne_true_of_eq_false h0), if_pos h1]

theorem hostWrite_ctrl_none (s : State) (w : Word) (h0 : w.getLsbD 0 = false) (h1 : w.getLsbD 1 = false) :
    s.hostWrite 0x002 w = s := by
  rw [hostWrite_ctrl, State.writeCtrl, if_neg (ne_true_of_eq_false h0), if_neg (ne_true_of_eq_false h1)]

/-- The word addresses where a write is ignored: `STATUS`, `ZZ` and the reserved ones (R39). -/
theorem hostWrite_of_ignored_ranges (s : State) (a : WordAddr) (w : Word) (h : a.toNat = 0x001 ∨
    (0x003 ≤ a.toNat ∧ a.toNat ≤ 0x03F) ∨ (0x080 ≤ a.toNat ∧ a.toNat ≤ 0x0FF) ∨
    (0x180 ≤ a.toNat ∧ a.toNat ≤ 0x1FF) ∨ 0x220 ≤ a.toNat) : s.hostWrite a w = s := by
  apply hostWrite_ignored
  by_cases hstatus : a.toNat = 0x001
  · exact .inr (.inl ((locate_eq_status_iff a).mpr (BitVec.eq_of_toNat_eq hstatus)))
  by_cases hzz : 0x080 ≤ a.toNat ∧ a.toNat ≤ 0x0BF
  · exact .inr (.inr ⟨⟨a.toNat - 0x080, by omega⟩, locate_zz a _ (by simp only; omega)⟩)
  · exact .inl (locate_reserved_of_ranges (by omega))

end Sys2Proof.Machine
end

section
/-! PROOF. When a transfer completes: at once with `BUSY = 0`; with `BUSY = 1` after the engine's step, but for
a read of `STATUS` (R41 to R43). -/

namespace Sys2Proof.Machine

/-! ### The step, by the agent that moves -/

theorem step_of_engine {s : State} (h : s.nextMove = .engine) : step s = complete s := by
  rw [step, h]

theorem step_of_host {s : State} {e : HostEvent} {rest : List HostEvent} (h : s.nextMove = .host e rest) :
    step s = .next (s.perform e rest) := by
  rw [step, h]

/-- With `BUSY = 0` the host's next event completes in one step. -/
theorem step_of_idle {s : State} {e : HostEvent} {rest : List HostEvent} (hb : s.busy = false)
    (hh : s.host = e :: rest) : step s = .next (s.perform e rest) :=
  step_of_host (nextMove_of_idle hb hh)

/-- With `BUSY = 0` a read uses up no latency. -/
theorem perform_read_of_idle {s : State} (hb : s.busy = false) (a : WordAddr) (rest : List HostEvent) :
    s.perform (.read a) rest = { s with reads := s.hostRead a :: s.reads, host := rest } := by
  simp [State.perform, State.noteRead, hb]

theorem step_read_of_idle {s : State} {a : WordAddr} {rest : List HostEvent} (hb : s.busy = false)
    (hh : s.host = .read a :: rest) :
    step s = .next { s with reads := s.hostRead a :: s.reads, host := rest } := by
  rw [step_of_idle hb hh, perform_read_of_idle hb]

theorem step_write_of_idle {s : State} {a : WordAddr} {w : Word} {rest : List HostEvent} (hb : s.busy = false)
    (hh : s.host = .write a w :: rest) : step s = .next { s.hostWrite a w with host := rest } :=
  step_of_idle hb hh

/-! ### The hold (R43) -/

/-- What R43 holds while `BUSY = 1`: every transfer but a read of `STATUS`. -/
def IsHeld (e : HostEvent) : Prop := (∃ a, e = .read a ∧ a ≠ 0x001) ∨ ∃ a w, e = .write a w

theorem IsHeld.read {a : WordAddr} (h : a ≠ 0x001) : IsHeld (.read a) := .inl ⟨a, rfl, h⟩

theorem IsHeld.write (a : WordAddr) (w : Word) : IsHeld (.write a w) := .inr ⟨a, w, rfl⟩

/-- A held transfer leaves the move to the engine. -/
theorem IsHeld.nextMove {s : State} {e : HostEvent} {rest : List HostEvent} (he : IsHeld e)
    (hb : s.busy = true) (hh : s.host = e :: rest) (hr : ∀ r, rest ≠ .hardReset :: r) :
    s.nextMove = .engine := by
  rcases he with ⟨a, rfl, ha⟩ | ⟨a, w, rfl⟩
  · exact nextMove_of_held hb hh (by rw [isStatusRead_read, decide_eq_false ha]) (by simp) hr
  · exact nextMove_of_held hb hh rfl (by simp) hr

/-- A held transfer waits for one step, the engine's, which leaves it asked for and `BUSY` clear. -/
theorem IsHeld.step {s : State} {e : HostEvent} {rest : List HostEvent} (he : IsHeld e)
    (hb : s.busy = true) (hh : s.host = e :: rest) (hr : ∀ r, rest ≠ .hardReset :: r) :
    ∃ t, step s = .next t ∧ complete s = .next t ∧ t.host = s.host ∧ t.reads = s.reads ∧
      t.busy = false := by
  obtain ⟨t, ht⟩ := complete_total s hb
  obtain ⟨-, htb, -, -, -, hhost, hreads, -⟩ := complete_frame ht
  exact ⟨t, (step_of_engine (he.nextMove hb hh hr)).trans ht, ht, hhost, hreads, htb⟩

/-- With `BUSY = 1` a read of `STATUS` completes while latency is left, and else the engine moves. -/
theorem step_status_read {s : State} {rest : List HostEvent} (hb : s.busy = true)
    (hh : s.host = .read 0x001 :: rest) :
    step s = complete s ∨ step s = .next (s.perform (.read 0x001) rest) := by
  by_cases hl : s.lat = 0
  · exact .inl (step_of_engine (nextMove_of_lat_zero hb hl))
  · exact .inr (step_of_host (nextMove_of_status_read hb hl hh (by simp [isStatusRead_read])))

/-- A completed read of `STATUS` changes the host's side and the latency only. -/
theorem perform_status_read (s : State) (rest : List HostEvent) :
    s.perform (.read 0x001) rest =
      { s with reads := s.statusWord :: s.reads, lat := (s.perform (.read 0x001) rest).lat,
               host := rest } := by
  rw [← hostRead_status]; rfl

/-! ### The hold ends -/

theorem run_succ_of_step {s t : State} (h : step s = .next t) (k : Nat) :
    Host.Core.run Sys2Proof.core (k + 1) s = Host.Core.run Sys2Proof.core k t := by
  have hcore : Sys2Proof.core.step s = .next t := h
  simp only [Host.Core.run, hcore]

theorem noteRead_lat_lt {s : State} (hb : s.busy = true) (hl : s.lat ≠ 0) (w : Word) :
    (s.noteRead w).lat < s.lat := by
  rw [State.noteRead_lat, if_pos hb]
  omega

/-- A host's move with `BUSY = 1` ends the command (a hard reset) or uses up latency, and what the host had
left to do ends in what it then has left. -/
theorem perform_of_busy {s : State} {e : HostEvent} {rest : List HostEvent}
    (hm : s.nextMove = .host e rest) (hb : s.busy = true) :
    ((s.perform e rest).busy = false ∨ (s.perform e rest).lat < s.lat) ∧
      (s.perform e rest).host <:+ s.host := by
  rcases nextMove_host_cases hm with ⟨hh, hidle | ⟨hl, hs⟩⟩ | ⟨held, hh, rfl, -, -⟩
  · simp [hb] at hidle
  · cases e with
    | read a => exact ⟨.inr (noteRead_lat_lt hb hl (s.hostRead a)), by simp [State.perform, hh]⟩
    | write a w => simp [isStatusRead] at hs
    | wait => exact ⟨.inr (noteRead_lat_lt hb hl (s.hostRead statusAddr)), by simp [State.perform, hh, hb]⟩
    | hardReset => exact ⟨.inl rfl, by simp [State.perform, hh]⟩
  · exact ⟨.inl rfl, by rw [hh]; exact (List.suffix_cons _ _).trans (List.suffix_cons _ _)⟩

/-- With `BUSY = 1` some agent moves. -/
theorem nextMove_ne_idle {s : State} (hb : s.busy = true) : s.nextMove ≠ .idle := by
  intro h
  unfold State.nextMove at h
  split at h
  · simp [hb] at h
  · repeat' split at h
    all_goals cases h

/-- One step from `BUSY = 1` clears `BUSY` or leaves less latency. -/
theorem step_of_busy {s : State} (hb : s.busy = true) :
    ∃ t, step s = .next t ∧ (t.busy = false ∨ t.lat < s.lat) ∧ t.host <:+ s.host := by
  cases hm : s.nextMove with
  | idle => exact absurd hm (nextMove_ne_idle hb)
  | engine =>
    obtain ⟨t, ht⟩ := complete_total s hb
    obtain ⟨-, htb, -, -, -, hhost, -⟩ := complete_frame ht
    exact ⟨t, (step_of_engine hm).trans ht, .inl htb, hhost ▸ List.suffix_rfl⟩
  | host e rest => exact ⟨_, step_of_host hm, perform_of_busy hm hb⟩

/-- Whatever the host asks for, `BUSY = 1` lasts finitely many steps, by induction on the latency left. -/
theorem run_reaches_idle (s : State) : ∃ (k : Nat) (t : State),
    Host.Core.run Sys2Proof.core k s = .next t ∧ t.busy = false ∧ t.host <:+ s.host := by
  induction hl : s.lat using Nat.strong_induction_on generalizing s with
  | _ n ih =>
    cases hb : s.busy with
    | false => exact ⟨0, s, rfl, hb, List.suffix_rfl⟩
    | true =>
      obtain ⟨t, hst, hend | hlt, hsuf⟩ := step_of_busy hb
      · exact ⟨1, t, run_succ_of_step hst 0, hend, hsuf⟩
      · obtain ⟨k, u, hrun, hub, husuf⟩ := ih t.lat (hl ▸ hlt) t rfl
        exact ⟨k + 1, u, (run_succ_of_step hst k).trans hrun, hub, husuf.trans hsuf⟩

/-! ### The obligations -/

/-- Settles O29: the map of reads, the read of an idle engine, the hold, and the read of `STATUS`. -/
theorem hostReadMap : Obligations.HostReadMap := by
  intro s
  refine ⟨hostRead_cmd s, by rw [hostRead_status, s.statusWord_toNat], hostRead_ctrl s,
    hostRead_qt_toNat s, hostRead_zz_toNat s, fun a n i h => hostRead_f s a n i (locate_f a n i h),
    fun a n k h => hostRead_q s a n k (locate_q a n k h),
    fun a h => hostRead_reserved s a (locate_reserved_of_ranges h),
    fun a rest hh hb => step_read_of_idle hb hh, fun a rest hh hb hr => ⟨fun ha => ?_, ?_⟩⟩
  · exact (IsHeld.read ha).step hb hh hr
  · rintro rfl
    refine (step_status_read hb hh).imp_right fun h => ⟨_, h, ?_⟩
    rw [hostRead_status]
    exact perform_status_read s rest

/-- Settles O30: the map of writes, the write of an idle engine, and the hold. -/
theorem hostWriteMap : Obligations.HostWriteMap := by
  intro s w
  refine ⟨fun hf => ⟨_, hostWrite_cmd_of_not_fault s w hf, rfl⟩, hostWrite_cmd_of_fault s w,
    hostWrite_ctrl_srst s w, hostWrite_ctrl_clrsat s w, hostWrite_ctrl_none s w,
    fun a i h => hostWrite_qt s a w i (locate_qt a i h),
    fun a n i h => hostWrite_f s a w n i (locate_f a n i h),
    fun a n k h => ⟨unpackQ s.qbuf[n] k w, hostWrite_q s a w n k (locate_q a n k h),
      unpackQ_get _ k w, unpackQ_get_of_ne _ k w⟩,
    fun a => hostWrite_of_ignored_ranges s a w,
    fun a rest hh hb => step_write_of_idle hb hh, fun a rest hh hb hr => ?_⟩
  obtain ⟨t, hst, hc, hhost, -, htb⟩ := (IsHeld.write a w).step hb hh hr
  exact ⟨t, hst, hc, hhost, htb⟩

/-- R39 for one transfer: if it completes as `f` in every idle state, it does so after the hold. -/
theorem held_completes {s : State} {e : HostEvent} {rest : List HostEvent} {f : State → State}
    (he : IsHeld e) (hh : s.host = e :: rest)
    (hidle : ∀ t : State, t.busy = false → t.host = e :: rest → step t = .next (f t)) :
    (s.busy = false → step s = .next (f s)) ∧
    (s.busy = true → (∀ r, rest ≠ .hardReset :: r) →
      ∃ t, step s = .next t ∧ complete s = .next t ∧ t.host = s.host ∧ t.reads = s.reads ∧
        step t = .next (f t)) := by
  refine ⟨fun hb => hidle s hb hh, fun hb hr => ?_⟩
  obtain ⟨t, hst, hc, hhost, hreads, htb⟩ := he.step hb hh hr
  exact ⟨t, hst, hc, hhost, hreads, hidle t htb (hhost.trans hh)⟩

/-- Settles O33: in an idle state such a read returns 0 and such a write is ignored; the hold is that of any
transfer. -/
theorem reservedAndReadOnly : Obligations.ReservedAndReadOnly := by
  intro s a w rest
  refine ⟨fun ha hh => ?_, fun ha hh => ?_⟩
  · have hzero : ∀ t : State, t.hostRead a = 0 := fun t => by
      by_cases hctrl : a.toNat = 0x002
      · rw [show a = 0x002 from BitVec.eq_of_toNat_eq hctrl, hostRead_ctrl]
      · exact hostRead_reserved t a (locate_reserved_of_ranges (by omega))
    have hne : a ≠ 0x001 := by rintro rfl; simp at ha
    exact held_completes (.read hne) hh fun t hb hh => by rw [step_read_of_idle hb hh, hzero]
  · exact held_completes (.write a w) hh fun t hb hh => by
      rw [step_write_of_idle hb hh, hostWrite_of_ignored_ranges t a w (by omega)]

/-- Settles O35: the hold, the read of `STATUS`, and the end of the hold by induction on the latency. -/
theorem holdWhileBusy : Obligations.HoldWhileBusy := by
  intro s e rest hb hh
  refine ⟨fun he hr => ?_, ?_, ?_⟩
  · obtain ⟨t, hst, hc, hhost, hreads, htb⟩ := IsHeld.step he hb hh hr
    exact ⟨t, hst, hc, hhost, hreads, htb, step_of_idle htb (hhost.trans hh)⟩
  · rintro rfl -
    rcases step_status_read hb hh with hst | hst
    · obtain ⟨t, ht⟩ := complete_total s hb
      obtain ⟨-, htb, -, -, -, hhost, -⟩ := complete_frame ht
      refine .inr ⟨t, hst.trans ht, ht, hhost, ?_⟩
      rw [step_read_of_idle htb (hhost.trans hh), hostRead_status]
    · exact .inl ⟨_, hst, perform_status_read s rest⟩
  · obtain ⟨k, t, hrun, htb, before, hbefore⟩ := run_reaches_idle s
    exact ⟨k, t, hrun, htb, before, hbefore.symm⟩

end Sys2Proof.Machine
end

section
/-! PROOF. The decoder over the five fields of a word: which words are commands (R52) and which are illegal
(R53). -/

namespace Sys2Proof

/-! ### Words and their fields (R50) -/

theorem CommandFields.toWord_ofWord (w : Word) : (ofWord w).toWord = w := by
  simp only [toWord, ofWord]
  rw [BitVec.extractLsb'_append_extractLsb'_eq_extractLsb' (show 9 = 8 + 1 from rfl),
    BitVec.extractLsb'_append_extractLsb'_eq_extractLsb' (show 8 = 5 + 3 from rfl),
    BitVec.extractLsb'_append_extractLsb'_eq_extractLsb' (show 5 = 4 + 1 from rfl),
    BitVec.extractLsb'_append_extractLsb'_eq_extractLsb' (show 4 = 0 + 4 from rfl)]
  exact BitVec.extractLsb'_eq_self

/-- A word is determined by its fields. -/
theorem CommandFields.ofWord_injective : Function.Injective ofWord :=
  Function.LeftInverse.injective toWord_ofWord

/-- The mask of R52 clears the two index bits and keeps the other fields. -/
theorem CommandFields.ofWord_and_mask (w : Word) :
    ofWord (w &&& 0xFFFFFEEF) = { ofWord w with src := 0, dst := 0 } := by
  have hop : (0xFFFFFEEF : Word).extractLsb' 0 4 = BitVec.allOnes 4 := by decide
  have hsrc : (0xFFFFFEEF : Word).extractLsb' 4 1 = 0#1 := by decide
  have hrz1 : (0xFFFFFEEF : Word).extractLsb' 5 3 = BitVec.allOnes 3 := by decide
  have hdst : (0xFFFFFEEF : Word).extractLsb' 8 1 = 0#1 := by decide
  have hrz2 : (0xFFFFFEEF : Word).extractLsb' 9 23 = BitVec.allOnes 23 := by decide
  simp only [ofWord, BitVec.extractLsb'_and, hop, hsrc, hrz1, hdst, hrz2, BitVec.and_allOnes,
    BitVec.and_zero]
  rfl

theorem CommandFields.ofWord_of_op (op : BitVec 4) :
    ofWord (op.setWidth 32) = { op := op, src := 0, rz1 := 0, dst := 0, rz2 := 0 } := by
  revert op; decide

/-- The mask test of R52, in terms of the fields. -/
theorem and_mask_eq_iff (w : Word) (op : BitVec 4) :
    w &&& 0xFFFFFEEF = op.setWidth 32 ↔ (CommandFields.ofWord w).op = op ∧
      (CommandFields.ofWord w).rz1 = 0 ∧ (CommandFields.ofWord w).rz2 = 0 := by
  rw [← CommandFields.ofWord_injective.eq_iff, CommandFields.ofWord_and_mask, CommandFields.ofWord_of_op]
  simp

theorem ofNat_bufIdxOfField (b : BitVec 1) : BitVec.ofNat 1 (bufIdxOfField b).val = b :=
  BitVec.ofNat_toNat 1 b

/-! ### What the decoder answers -/

/-- The fields of a word that decodes to a command are the command's. -/
theorem fields_of_decode {w : Word} {i : Instr} (h : decode w = .ok i) :
    (CommandFields.ofWord w).rz2 = 0 ∧ (CommandFields.ofWord w).rz1 = 0 ∧
      (CommandFields.ofWord w).op.toNat = i.opcode ∧
      bufIdxOfField (CommandFields.ofWord w).dst = i.dst ∧
      bufIdxOfField (CommandFields.ofWord w).src = i.src := by
  unfold decode at h
  simp only at h
  split_ifs at h with hrz2 hrz1
  refine ⟨not_not.mp hrz2, not_not.mp hrz1, ?_⟩
  split at h <;> cases h <;> exact ⟨‹_›, rfl, rfl⟩

theorem decode_of_fields {w : Word} {i : Instr} (hrz2 : (CommandFields.ofWord w).rz2 = 0)
    (hrz1 : (CommandFields.ofWord w).rz1 = 0) (hop : (CommandFields.ofWord w).op.toNat = i.opcode)
    (hdst : bufIdxOfField (CommandFields.ofWord w).dst = i.dst)
    (hsrc : bufIdxOfField (CommandFields.ofWord w).src = i.src) : decode w = .ok i := by
  cases i <;>
    (simp only [Instr.opcode, Instr.dst, Instr.src] at hop hdst hsrc
     simp [decode, hrz2, hrz1, hop, hdst, hsrc])

theorem decode_encode (i : Instr) : decode (encode i) = .ok i := by
  cases i with
  | fdct d s | idct d s | quant d s | dequant d s | zzf d s | zzi d s => revert d s; decide

theorem encode_injective : Function.Injective encode := fun i j h =>
  Except.ok.inj ((decode_encode i).symm.trans ((congrArg decode h).trans (decode_encode j)))

/-! ### Rows of the opcode map (R52) -/

/-- A row of the opcode map: a command `mk` of two indices, whose operation code is `op`. -/
def IsRow (mk : BufIdx → BufIdx → Instr) (op : BitVec 4) : Prop :=
  ∀ d s, (mk d s).dst = d ∧ (mk d s).src = s ∧ (mk d s).opcode = op.toNat

/-- A word decodes to a row's command exactly when it passes the row's mask test. -/
theorem IsRow.decode_iff {mk : BufIdx → BufIdx → Instr} {op : BitVec 4} (hmk : IsRow mk op) (w : Word) :
    (∃ d s, decode w = .ok (mk d s)) ↔ w &&& 0xFFFFFEEF = op.setWidth 32 := by
  rw [and_mask_eq_iff]
  constructor
  · rintro ⟨d, s, h⟩
    obtain ⟨hrz2, hrz1, hop, -, -⟩ := fields_of_decode h
    obtain ⟨-, -, hcode⟩ := hmk d s
    exact ⟨BitVec.eq_of_toNat_eq (hop.trans hcode), hrz1, hrz2⟩
  · rintro ⟨hop, hrz1, hrz2⟩
    obtain ⟨hdst, hsrc, hcode⟩ := hmk (bufIdxOfField (CommandFields.ofWord w).dst)
      (bufIdxOfField (CommandFields.ofWord w).src)
    exact ⟨_, _, decode_of_fields hrz2 hrz1 (by rw [hop, hcode]) hdst.symm hsrc.symm⟩

theorem isRow_fdct : IsRow .fdct 1 := fun _ _ => ⟨rfl, rfl, rfl⟩
theorem isRow_idct : IsRow .idct 2 := fun _ _ => ⟨rfl, rfl, rfl⟩
theorem isRow_quant : IsRow .quant 3 := fun _ _ => ⟨rfl, rfl, rfl⟩
theorem isRow_dequant : IsRow .dequant 4 := fun _ _ => ⟨rfl, rfl, rfl⟩
theorem isRow_zzf : IsRow .zzf 5 := fun _ _ => ⟨rfl, rfl, rfl⟩
theorem isRow_zzi : IsRow .zzi 6 := fun _ _ => ⟨rfl, rfl, rfl⟩

/-- Settles O3: the mask test of each row, and the index bits from the fields of the decoded word. -/
theorem decodeFollowsMaskAndMatch : Obligations.DecodeFollowsMaskAndMatch := by
  refine ⟨fun w => ⟨isRow_fdct.decode_iff w, isRow_idct.decode_iff w, isRow_quant.decode_iff w,
    isRow_dequant.decode_iff w, isRow_zzf.decode_iff w, isRow_zzi.decode_iff w, fun i h => ?_⟩,
    encode_injective, by decide⟩
  obtain ⟨-, -, -, hdst, hsrc⟩ := fields_of_decode h
  rw [← hdst, ← hsrc, ofNat_bufIdxOfField, ofNat_bufIdxOfField]
  exact ⟨rfl, rfl⟩

/-! ### Illegal words (R53) -/

theorem CommandFields.wf_iff (c : CommandFields) :
    c.wf = true ↔ 1 ≤ c.op.toNat ∧ c.op.toNat ≤ 6 ∧ c.rz1 = 0 ∧ c.rz2 = 0 := by
  simp [wf, and_assoc]

theorem Instr.opcode_bounds (i : Instr) : 1 ≤ i.opcode ∧ i.opcode ≤ 6 := by
  cases i <;> simp [Instr.opcode]

/-- Each operation code from 1 to 6 is that of a row. -/
theorem exists_isRow {op : BitVec 4} (h1 : 1 ≤ op.toNat) (h6 : op.toNat ≤ 6) : ∃ mk, IsRow mk op := by
  have hrows : op = 1 ∨ op = 2 ∨ op = 3 ∨ op = 4 ∨ op = 5 ∨ op = 6 := by revert op; decide
  rcases hrows with rfl | rfl | rfl | rfl | rfl | rfl
  exacts [⟨_, isRow_fdct⟩, ⟨_, isRow_idct⟩, ⟨_, isRow_quant⟩, ⟨_, isRow_dequant⟩, ⟨_, isRow_zzf⟩,
    ⟨_, isRow_zzi⟩]

/-- The legal words are those with well-formed fields. -/
theorem exists_decode_ok_iff_wf (w : Word) :
    (∃ i, decode w = .ok i) ↔ (CommandFields.ofWord w).wf = true := by
  rw [CommandFields.wf_iff]
  constructor
  · rintro ⟨i, h⟩
    obtain ⟨hrz2, hrz1, hop, -, -⟩ := fields_of_decode h
    rw [hop]
    exact ⟨i.opcode_bounds.1, i.opcode_bounds.2, hrz1, hrz2⟩
  · rintro ⟨h1, h6, hrz1, hrz2⟩
    obtain ⟨mk, hmk⟩ := exists_isRow h1 h6
    obtain ⟨d, s, h⟩ := (hmk.decode_iff w).mpr ((and_mask_eq_iff w _).mpr ⟨rfl, hrz1, hrz2⟩)
    exact ⟨_, h⟩

theorem exists_decode_error_iff_not_ok (w : Word) :
    (∃ e, decode w = .error e) ↔ ¬∃ i, decode w = .ok i := by
  cases decode w <;> simp

/-- The four cases of R53. -/
theorem exists_decode_error_iff (w : Word) :
    (∃ e, decode w = .error e) ↔
      w.extractLsb' 0 4 = 0 ∨ 7 ≤ (w.extractLsb' 0 4).toNat ∨ w.extractLsb' 5 3 ≠ 0 ∨
        w.extractLsb' 9 23 ≠ 0 := by
  rw [exists_decode_error_iff_not_ok, exists_decode_ok_iff_wf, CommandFields.wf_iff, not_and_or,
    not_and_or, not_and_or, not_le, not_le, Nat.lt_one_iff, ← BitVec.toNat_inj (x := w.extractLsb' 0 4)]
  rfl

end Sys2Proof

namespace Sys2Proof.Machine

/-- Settles O4: the write is the acceptance, and the engine's step on an illegal word its fault. -/
theorem illegalWordsFault : Obligations.IllegalWordsFault := by
  intro w
  refine ⟨exists_decode_error_iff w, ?_⟩
  rintro s t hb hf rfl
  rw [hostWrite_cmd_of_not_fault s w hf]
  refine ⟨rfl, fun ⟨e, he⟩ => ?_⟩
  have hcomplete := complete_error (s := s.accept w) he rfl
  exact ⟨_, hcomplete, rfl, hostRead_cmd _⟩

end Sys2Proof.Machine
end

section
/-! PROOF. The frame of every command (R59): by field, and through the host port by word address. -/

namespace Sys2Proof.Machine

/-! ### The address map read backwards (R32) -/

/-- The word addresses of the F buffers. -/
theorem toNat_of_locate_f {a : WordAddr} {n : BufIdx} {j : Elem} (h : locate a = .f n j) :
    a.toNat = 0x100 + 64 * n.val + j.val := by
  unfold locate at h
  simp only at h
  split_ifs at h
  cases h
  simp only [Fin.val_ofNat]
  omega

/-- The word addresses of the Q buffers. -/
theorem toNat_of_locate_q {a : WordAddr} {n : BufIdx} {k : Fin 16} (h : locate a = .q n k) :
    a.toNat = 0x200 + 16 * n.val + k.val := by
  unfold locate at h
  simp only at h
  split_ifs at h
  cases h
  simp only [Fin.val_ofNat]
  omega

/-- Two states that agree on what a word address other than `STATUS` names agree on its read. -/
theorem hostRead_congr {s t : State} {a : WordAddr} (ha : a ≠ 0x001) (hqt : t.qt = s.qt)
    (hzz : t.zz = s.zz) (hcmd : t.cmd = s.cmd)
    (hf : ∀ n j, locate a = .f n j → t.readF n = s.readF n)
    (hq : ∀ n k, locate a = .q n k → t.readQ n = s.readQ n) : t.hostRead a = s.hostRead a := by
  unfold State.hostRead
  cases hloc : locate a with
  | cmd => exact hcmd
  | status => exact absurd ((locate_eq_status_iff a).mp hloc) ha
  | ctrl | reserved => rfl
  | qt i => simp only [hqt]
  | zz i => simp only [hzz]
  | f n j => simp only [hf n j hloc]
  | q n k => simp only [hq n k hloc]

/-! ### What a command's result leaves alone -/

/-- The F buffers outside the destination. -/
theorem commandResult_readF (i : Instr) (s : State) (n : BufIdx) (h : n ≠ i.dst ∨ writesF i = false) :
    (commandResult i s).readF n = s.readF n := by
  cases i with
  | fdct d m | idct d m | dequant d m =>
    exact readF_writeF_ne s d n _ (h.resolve_right (by simp [writesF]))
  | quant d m | zzf d m | zzi d m => rfl

/-- The Q buffers outside the destination. -/
theorem commandResult_readQ (i : Instr) (s : State) (n : BufIdx) (h : n ≠ i.dst ∨ writesF i = true) :
    (commandResult i s).readQ n = s.readQ n := by
  cases i with
  | fdct d m | idct d m | dequant d m => rfl
  | quant d m | zzf d m | zzi d m =>
    exact readQ_writeQ_ne s d n _ (h.resolve_right (by simp [writesF]))

/-- Only a QUANT changes `QSAT`, and only to 1 (R73). -/
theorem commandResult_qsat_ne {i : Instr} {s : State} (h : (commandResult i s).qsat ≠ s.qsat) :
    (∃ d n, i = .quant d n) ∧ (commandResult i s).qsat = true := by
  cases i with
  | quant d m =>
    refine ⟨⟨d, m, rfl⟩, ?_⟩
    cases hs : s.qsat with
    | false => simpa [hs] using h
    | true => simp [commandResult, hs]
  | fdct | idct | dequant | zzf | zzi => exact absurd rfl h

/-! ### What a command leaves alone, whether it faults or not -/

section frame
variable {i : Instr} {s t : State} (h : exec i s = .next t)
include h

theorem exec_frame : t.qt = s.qt ∧ t.zz = s.zz ∧ t.cmd = s.cmd ∧ t.host = s.host ∧ t.reads = s.reads ∧
    t.lat = s.lat ∧ t.draws = s.draws ∧ t.busy = false := by
  obtain ⟨-, ⟨c, -, rfl⟩ | ⟨-, rfl⟩⟩ := exec_cases h
  · simp
  · obtain ⟨hb, -, -, hqt, hzz, hcmd, hhost, hreads, hlat, hdraws⟩ := commandResult_frame i s
    exact ⟨hqt, hzz, hcmd, hhost, hreads, hlat, hdraws, hb⟩

theorem exec_readF (n : BufIdx) (hn : n ≠ i.dst ∨ writesF i = false) : t.readF n = s.readF n := by
  obtain ⟨-, ⟨c, -, rfl⟩ | ⟨-, rfl⟩⟩ := exec_cases h
  · rfl
  · exact commandResult_readF i s n hn

theorem exec_readQ (n : BufIdx) (hn : n ≠ i.dst ∨ writesF i = true) : t.readQ n = s.readQ n := by
  obtain ⟨-, ⟨c, -, rfl⟩ | ⟨-, rfl⟩⟩ := exec_cases h
  · rfl
  · exact commandResult_readQ i s n hn

theorem exec_qsat_ne (hq : t.qsat ≠ s.qsat) : (∃ d n, i = .quant d n) ∧ t.qsat = true := by
  obtain ⟨-, ⟨c, -, rfl⟩ | ⟨-, rfl⟩⟩ := exec_cases h
  · exact absurd rfl hq
  · exact commandResult_qsat_ne hq

/-- `FAULT` and `CAUSE` change only in a fault, and the reorders, which check nothing, raise none. -/
theorem exec_fault_ne (hf : t.fault ≠ s.fault ∨ t.cause ≠ s.cause) :
    t.fault = true ∧ ∀ d n, i ≠ .zzf d n ∧ i ≠ .zzi d n := by
  obtain ⟨-, ⟨c, hc, rfl⟩ | ⟨-, rfl⟩⟩ := exec_cases h
  · refine ⟨rfl, fun d n => ⟨?_, ?_⟩⟩ <;> rintro rfl <;> cases hc
  · obtain ⟨-, hfault, hcause, -⟩ := commandResult_frame i s
    simp [hfault, hcause] at hf

/-- Outside the destination block and `STATUS` every word address reads as before. -/
theorem exec_hostRead {a : WordAddr} (ha : a ≠ 0x001)
    (hf : ∀ j : Elem, a.toNat = 0x100 + 64 * i.dst.val + j.val → writesF i = false)
    (hq : ∀ k : Fin 16, a.toNat = 0x200 + 16 * i.dst.val + k.val → writesF i = true) :
    t.hostRead a = s.hostRead a := by
  obtain ⟨hqt, hzz, hcmd, -⟩ := exec_frame h
  refine hostRead_congr ha hqt hzz hcmd (fun n j hloc => exec_readF h n ?_)
    fun n k hloc => exec_readQ h n ?_
  · exact (ne_or_eq n i.dst).imp_right fun hn => hf j (by rw [← hn, toNat_of_locate_f hloc])
  · exact (ne_or_eq n i.dst).imp_right fun hn => hq k (by rw [← hn, toNat_of_locate_q hloc])

end frame

/-- Settles O18: each clause is one of the frame lemmas of `exec`. -/
theorem commandFrame : Obligations.CommandFrame := by
  intro i s t h
  obtain ⟨hqt, hzz, hcmd, hhost, hreads, hlat, hdraws, hb⟩ := exec_frame h
  exact ⟨hqt, hzz, hcmd, hhost, hreads, hlat, hdraws, hb, exec_readF h, exec_readQ h, exec_qsat_ne h,
    exec_fault_ne h, fun _ => exec_hostRead h⟩

end Sys2Proof.Machine
end

section
/-! PROOF. The operand check (R67) and the accuracy contract (R64) of the two transforms. -/

namespace Sys2Proof.Machine

/-! ### The operand check, on values and on patterns (R67) -/

theorem checkTransform_passes {S : FBlock} (h : ∀ j : Elem, finite S[j] = true ∧ |fval S[j]| ≤ 2 ^ 24) :
    checkTransform S = none :=
  (checkTransform_none_iff S).mpr ((inRange_iff S).mpr h)

theorem checkTransform_large {S : FBlock} (hfin : ∀ j : Elem, finite S[j] = true)
    (hlarge : ∃ j : Elem, 2 ^ 24 < |fval S[j]|) : checkTransform S = some .operandRange :=
  checkTransform_range S hfin (hlarge.imp fun j hj => (overRange_iff _ (hfin j)).mpr hj)

theorem finite_iff_extractLsb' (w : Word) : finite w = true ↔ w.extractLsb' 23 8 ≠ 255 := by
  rw [finite_iff, ne_eq, ne_eq, ← BitVec.toNat_inj]
  rfl

theorem lt_abs_fval_iff_extractLsb' {w : Word} (h : finite w = true) :
    2 ^ 24 < |fval w| ↔ 0x4B800000 < (w.extractLsb' 0 31).toNat := by
  rw [← overRange_iff w h, overRange, decide_eq_true_iff]

/-! ### What DEQUANT can produce (R74) -/

theorem sint8_natAbs_le (b : Byte) : (sint8 b).natAbs ≤ 128 := by
  unfold sint8
  split <;> omega

theorem dequant_natAbs_le (b : Byte) (d : Divisor) : (dequant (sint8 b) d).natAbs ≤ 2 ^ 24 := by
  rw [dequant, Int.natAbs_mul, Int.natAbs_natCast]
  calc (sint8 b).natAbs * d.toNat ≤ 128 * 2 ^ 16 := Nat.mul_le_mul (sint8_natAbs_le b) d.isLt.le
    _ ≤ 2 ^ 24 := by norm_num

/-- The pattern of a dequantized element is the exact product's. -/
theorem dequantBlock_value (B : QBlock) (T : QTable) (i : Elem) :
    finite (dequantBlock B T)[i] = true ∧ fval (dequantBlock B T)[i] = dequant (sint8 B[i]) T[i] := by
  simpa [dequantBlock] using fencInt_value _ (dequant_natAbs_le B[i] T[i])

theorem abs_fval_dequantBlock_le (B : QBlock) (T : QTable) (i : Elem) :
    |fval (dequantBlock B T)[i]| ≤ 2 ^ 24 := by
  rw [(dequantBlock_value B T i).2, ← Int.cast_abs, Int.abs_eq_natAbs]
  exact_mod_cast dequant_natAbs_le B[i] T[i]

/-- Settles O14: a cause of the check is the command's fault, and the tests on patterns are those on values. -/
theorem operandCheck : Obligations.OperandCheck := by
  refine ⟨fun d n s hb => ⟨fun hnon => ?_, fun hfin hlarge => ?_, fun hok => ?_⟩,
    fun w => ⟨finite_iff_extractLsb' w, lt_abs_fval_iff_extractLsb'⟩,
    fun B T i => ⟨(dequantBlock_value B T i).1, abs_fval_dequantBlock_le B T i⟩⟩
  · have hcheck : checkTransform (s.readF n) = some .operandNonfinite := checkTransform_nonfinite _ hnon
    exact ⟨exec_faults (.fdct d n) s hb _ hcheck, exec_faults (.idct d n) s hb _ hcheck⟩
  · have hcheck : checkTransform (s.readF n) = some .operandRange := checkTransform_large hfin hlarge
    exact ⟨exec_faults (.fdct d n) s hb _ hcheck, exec_faults (.idct d n) s hb _ hcheck⟩
  · have hcheck : checkTransform (s.readF n) = none := checkTransform_passes hok
    exact ⟨⟨_, exec_result (.fdct d n) s hb hcheck, rfl⟩, ⟨_, exec_result (.idct d n) s hb hcheck, rfl⟩⟩

/-! ### The accuracy contract (R64) -/

/-- An attained bound of the magnitudes is the largest one. -/
theorem blockMax_eq_of_attained {S : FBlock} {M : ℚ} (hle : ∀ j : Elem, |fval S[j]| ≤ M)
    (hatt : ∃ j : Elem, |fval S[j]| = M) : blockMax S = M := by
  obtain ⟨j, rfl⟩ := hatt
  exact le_antisymm ((blockMax_le_iff S _).mpr ⟨abs_nonneg _, hle⟩) (abs_fval_le_blockMax S j)

/-- The contract in the words of R64, with `M` the attained maximum. -/
theorem Accurate.of_attained {exact : (Elem → ℝ) → Elem → ℝ} {impl : FBlock → FBlock}
    (h : Accurate exact impl) {S : FBlock} {M : ℚ}
    (hok : ∀ j : Elem, finite S[j] = true ∧ |fval S[j]| ≤ 2 ^ 24) (hle : ∀ j : Elem, |fval S[j]| ≤ M)
    (hatt : ∃ j : Elem, |fval S[j]| = M) (i : Elem) :
    finite (impl S)[i] = true ∧
      |(fval (impl S)[i] : ℝ) - exact (fun j => (fval S[j] : ℝ)) i| ≤ (tol M : ℝ) := by
  rw [← blockMax_eq_of_attained hle hatt]
  exact h S ((inRange_iff S).mpr hok) i

theorem commandResult_fdct_readF (d n : BufIdx) (s : State) :
    (commandResult (.fdct d n) s).readF d = Config.fdctImpl (s.readF n) :=
  readF_writeF_same s d _

theorem commandResult_idct_readF (d n : BufIdx) (s : State) :
    (commandResult (.idct d n) s).readF d = Config.idctImpl (s.readF n) :=
  readF_writeF_same s d _

/-- Settles O13: the two functions are the datapaths of the hardware, of which the contract is known. -/
theorem transformAccuracy : Obligations.TransformAccuracy := by
  refine ⟨Config.fdctImpl, Config.idctImpl, fun S M hok hle hatt i =>
    ⟨Config.fdctImpl_accurate.of_attained hok hle hatt i,
      Config.idctImpl_accurate.of_attained hok hle hatt i⟩, fun d n s hb hok => ?_⟩
  have hcheck : checkTransform (s.readF n) = none := checkTransform_passes hok
  exact ⟨⟨_, exec_result (.fdct d n) s hb hcheck, commandResult_fdct_readF d n s⟩,
    ⟨_, exec_result (.idct d n) s hb hcheck, commandResult_idct_readF d n s⟩⟩

end Sys2Proof.Machine
end

section
/-! PROOF. The basis matrix is orthonormal (R60): products of cosines are sums, and a sum of cosines over the
odd multiples of an angle telescopes. -/

namespace Sys2Proof.Machine

open Real

/-! ### Sums of cosines over the odd multiples of an angle -/

/-- `∑_m 2 sin θ cos((2m+1)θ)` telescopes. -/
theorem two_mul_sin_mul_sum_cos (θ : ℝ) :
    2 * sin θ * ∑ m : Fin 8, cos ((2 * m.val + 1) * θ) = sin (16 * θ) := by
  have hterm : ∀ m : ℕ, 2 * sin θ * cos ((2 * m + 1) * θ) =
      sin (2 * (m + 1 : ℕ) * θ) - sin (2 * m * θ) := fun m => by
    rw [sin_sub_sin]
    push_cast
    ring_nf
  calc 2 * sin θ * ∑ m : Fin 8, cos ((2 * m.val + 1) * θ)
      = ∑ m ∈ Finset.range 8, 2 * sin θ * cos ((2 * m + 1) * θ) := by
        rw [Finset.mul_sum, Fin.sum_univ_eq_sum_range (fun m => 2 * sin θ * cos ((2 * m + 1) * θ))]
    _ = ∑ m ∈ Finset.range 8, (sin (2 * (m + 1 : ℕ) * θ) - sin (2 * m * θ)) :=
        Finset.sum_congr rfl fun m _ => hterm m
    _ = sin (16 * θ) := by
        rw [Finset.sum_range_sub fun m : ℕ => sin (2 * m * θ)]
        norm_num

/-- The angle `nπ/16` of R60 and R68. -/
noncomputable def angle (n : ℤ) : ℝ := n * π / 16

theorem sin_angle_ne_zero {n : ℤ} (h : ¬ 16 ∣ n) : sin (angle n) ≠ 0 := by
  intro hs
  obtain ⟨j, hj⟩ := sin_eq_zero_iff.mp hs
  have hjn : (j * 16 : ℝ) = n := mul_right_cancel₀ pi_ne_zero (by rw [angle] at hj; linarith)
  exact h ⟨j, by rw [mul_comm]; exact_mod_cast hjn.symm⟩

/-- The sum of a basis row's cosines is 0, for the row of any `n` that is no multiple of 16. -/
theorem sum_cos_angle {n : ℤ} (h : ¬ 16 ∣ n) : ∑ m : Fin 8, cos ((2 * m.val + 1) * angle n) = 0 := by
  have hsum := two_mul_sin_mul_sum_cos (angle n)
  rw [show 16 * angle n = n * π by rw [angle]; ring, sin_int_mul_pi] at hsum
  exact (mul_eq_zero.mp hsum).resolve_left (mul_ne_zero two_ne_zero (sin_angle_ne_zero h))

theorem sum_cos_angle_zero : ∑ m : Fin 8, cos ((2 * m.val + 1) * angle 0) = 8 := by
  simp [angle]

/-! ### The rows of the basis -/

/-- The product of two rows' cosines, as a sum. -/
theorem two_mul_cosTerm_mul_cosTerm (k l m : Fin 8) : 2 * (cosTerm k m * cosTerm l m) =
    cos ((2 * m.val + 1) * angle (k.val - l.val)) + cos ((2 * m.val + 1) * angle (k.val + l.val)) := by
  rw [cosTerm, cosTerm, ← mul_assoc, two_mul_cos_mul_cos]
  simp only [angle]
  push_cast
  ring_nf

theorem two_mul_sum_cosTerm (k l : Fin 8) : 2 * ∑ m : Fin 8, cosTerm k m * cosTerm l m =
    ∑ m : Fin 8, cos ((2 * m.val + 1) * angle (k.val - l.val)) +
      ∑ m : Fin 8, cos ((2 * m.val + 1) * angle (k.val + l.val)) := by
  rw [Finset.mul_sum, ← Finset.sum_add_distrib]
  exact Finset.sum_congr rfl fun m _ => two_mul_cosTerm_mul_cosTerm k l m

theorem sum_cosTerm_of_ne {k l : Fin 8} (h : k ≠ l) : ∑ m : Fin 8, cosTerm k m * cosTerm l m = 0 := by
  have hsum := two_mul_sum_cosTerm k l
  rw [sum_cos_angle (by omega), sum_cos_angle (by omega)] at hsum
  linarith

theorem sum_cosTerm_self {k : Fin 8} (h : k ≠ 0) : ∑ m : Fin 8, cosTerm k m * cosTerm k m = 4 := by
  have hsum := two_mul_sum_cosTerm k k
  rw [sub_self, sum_cos_angle_zero, sum_cos_angle (by omega)] at hsum
  linarith

theorem sum_cosTerm_zero : ∑ m : Fin 8, cosTerm 0 m * cosTerm 0 m = 8 := by
  simp [cosTerm]

theorem alpha_zero_mul_self : alpha 0 * alpha 0 = 1 / 8 := by
  rw [alpha, if_pos rfl, div_mul_div_comm, one_mul, mul_self_sqrt (by norm_num)]

theorem sum_basis_mul (k l : Fin 8) : ∑ m : Fin 8, basis k m * basis l m =
    alpha k * alpha l * ∑ m : Fin 8, cosTerm k m * cosTerm l m := by
  simp only [basis, Finset.mul_sum, mul_mul_mul_comm]

theorem sum_basis_mul_self (k : Fin 8) : ∑ m : Fin 8, basis k m * basis k m = 1 := by
  rw [sum_basis_mul]
  by_cases h : k = 0
  · rw [h, alpha_zero_mul_self, sum_cosTerm_zero]
    norm_num
  · rw [Laws.alpha_pos k h, sum_cosTerm_self h]
    norm_num

theorem sum_basis_mul_of_ne {k l : Fin 8} (h : k ≠ l) : ∑ m : Fin 8, basis k m * basis l m = 0 := by
  rw [sum_basis_mul, sum_cosTerm_of_ne h, mul_zero]

/-- Settles O45: the two factors, and the two cases of orthonormality. -/
theorem basisOrthonormal : Obligations.BasisOrthonormal := by
  have hzero : alpha 0 = 1 / √8 := if_pos rfl
  refine ⟨hzero, Laws.alpha_pos, fun k m => rfl, fun m => ?_, fun k l => ?_⟩
  · rw [basis, hzero, cosTerm]
    simp
  · split_ifs with h
    · rw [h, sum_basis_mul_self]
    · exact sum_basis_mul_of_ne h

end Sys2Proof.Machine
end

section
/-! PROOF. The quantizer's numbers (`41_quantize.md` R70, R74, R77): where the clamp acts, and how far
dequantizing a quantized coefficient is from the coefficient. -/

namespace Sys2Proof.Machine

/-! ### Rounding against an integer (R7) -/

theorem rha_neg (x : ℚ) : rha (-x) = -rha x := by
  rcases lt_trichotomy x 0 with hx | rfl | hx
  · rw [← neg_neg x, rha_neg_of_pos (neg_pos.mpr hx), neg_neg, neg_neg]
  · decide +kernel
  · exact rha_neg_of_pos hx

/-- A half rounds up here, since the bound is not negative. -/
theorem rha_le_iff {n : ℤ} (hn : 0 ≤ n) (x : ℚ) : rha x ≤ n ↔ x < n + 1 / 2 := by
  have hn' : (0 : ℚ) ≤ n := by exact_mod_cast hn
  rcases le_or_gt 0 x with hx | hx
  · rw [rha_of_nonneg hx, ← Int.lt_add_one_iff, Int.floor_lt]
    push_cast
    constructor <;> intro h <;> linarith
  · have hfloor : 0 ≤ ⌊-x + 1 / 2⌋ := Int.floor_nonneg.mpr (by linarith)
    rw [rha_of_neg hx]
    exact iff_of_true (by omega) (by linarith)

/-- The mirror image of `rha_le_iff`. -/
theorem le_rha_iff {n : ℤ} (hn : n ≤ 0) (x : ℚ) : n ≤ rha x ↔ n - 1 / 2 < x := by
  have h := rha_le_iff (neg_nonneg.mpr hn) (-x)
  rw [rha_neg, neg_le_neg_iff] at h
  rw [h]
  push_cast
  constructor <;> intro h <;> linarith

theorem rha_intCast (n : ℤ) : rha n = n := by
  rcases le_total 0 n with hn | hn
  · rw [rha_eq_round (Int.cast_nonneg hn), round_intCast]
  · rw [← neg_inj, ← rha_neg, rha_eq_round (by simpa using hn), ← Int.cast_neg, round_intCast]

/-- The rounding error is one half exactly at the odd multiples of one half. -/
theorem rha_tie_iff (x : ℚ) : |x - rha x| = 1 / 2 ↔ ∃ k : ℤ, k % 2 = 1 ∧ 2 * x = k := by
  constructor
  · intro h
    rcases eq_or_eq_neg_of_abs_eq h with h | h
    · exact ⟨2 * rha x + 1, by omega, by push_cast; linarith⟩
    · exact ⟨2 * rha x - 1, by omega, by push_cast; linarith⟩
  · rintro ⟨k, hodd, hk⟩
    refine le_antisymm (rha_error x).1 ?_
    have hdist : (1 : ℚ) ≤ |((k - 2 * rha x : ℤ) : ℚ)| := by
      exact_mod_cast Int.one_le_abs (by omega : k - 2 * rha x ≠ 0)
    have hdouble : ((k - 2 * rha x : ℤ) : ℚ) = 2 * (x - rha x) := by push_cast; linarith
    rw [hdouble, abs_mul, abs_two] at hdist
    linarith

/-! ### The clamp (R8) -/

theorem clamp8_of_mem {n : ℤ} (hlow : -128 ≤ n) (hhigh : n ≤ 127) : clamp8 n = n := by
  rw [clamp8, if_neg hlow.not_gt, if_neg hhigh.not_gt]

theorem clamp8_of_gt {n : ℤ} (h : 127 < n) : clamp8 n = 127 := by
  rw [clamp8, if_neg (by omega), if_pos h]

theorem clamp8_of_lt {n : ℤ} (h : n < -128) : clamp8 n = -128 := if_pos h

theorem clamp8_le (n : ℤ) : clamp8 n ≤ 127 := by
  unfold clamp8
  split_ifs <;> omega

theorem clamp8_ne_self_iff (n : ℤ) : clamp8 n ≠ n ↔ n < -128 ∨ 127 < n := by
  unfold clamp8
  split_ifs <;> omega

theorem quant_of_gt {c : ℚ} {d : Divisor} (h : 127 < quotient c d) : quant c d = 127 := clamp8_of_gt h

theorem quant_of_lt {c : ℚ} {d : Divisor} (h : quotient c d < -128) : quant c d = -128 := clamp8_of_lt h

/-! ### The error (R77) -/

theorem toNat_cast_pos {d : Divisor} (hd : d ≠ 0) : (0 : ℚ) < d.toNat := by
  exact_mod_cast BitVec.toNat_pos_of_ne_zero hd

theorem dequant_cast (q : ℤ) (d : Divisor) : (dequant q d : ℚ) = q * d.toNat := by
  rw [dequant]; push_cast; rfl

/-- Without the clamp the error is that of the rounding, scaled by the divisor. -/
theorem abs_dequant_quotient_sub (c : ℚ) {d : Divisor} (hd : d ≠ 0) :
    |(dequant (quotient c d) d : ℚ) - c| = d.toNat * |c / d.toNat - rha (c / d.toNat)| := by
  have hpos := toNat_cast_pos hd
  have hscale : (dequant (quotient c d) d : ℚ) - c =
      -(d.toNat * (c / d.toNat - rha (c / d.toNat))) := by
    rw [dequant_cast, quotient, mul_sub, mul_div_cancel₀ _ hpos.ne']; ring
  rw [hscale, abs_neg, abs_mul, abs_of_pos hpos]

theorem quotient_mem_iff (c : ℚ) {d : Divisor} (hd : d ≠ 0) :
    (-128 ≤ quotient c d ∧ quotient c d ≤ 127) ↔
      (-(257 / 2) * (d.toNat : ℚ) < c ∧ c < 255 / 2 * (d.toNat : ℚ)) := by
  have hpos := toNat_cast_pos hd
  rw [quotient, le_rha_iff (by norm_num), rha_le_iff (by norm_num), ← lt_div_iff₀ hpos,
    ← div_lt_iff₀ hpos]
  norm_num

theorem abs_dequant_quotient_sub_le (c : ℚ) {d : Divisor} (hd : d ≠ 0) :
    |(dequant (quotient c d) d : ℚ) - c| ≤ (d.toNat : ℚ) / 2 := by
  rw [abs_dequant_quotient_sub c hd, div_eq_mul_one_div (d.toNat : ℚ) 2]
  exact mul_le_mul_of_nonneg_left (rha_error _).1 (Nat.cast_nonneg _)

theorem abs_dequant_quotient_sub_eq_iff (c : ℚ) {d : Divisor} (hd : d ≠ 0) :
    |(dequant (quotient c d) d : ℚ) - c| = (d.toNat : ℚ) / 2 ↔
      ∃ k : ℤ, k % 2 = 1 ∧ 2 * c = k * (d.toNat : ℚ) := by
  have hpos := toNat_cast_pos hd
  rw [abs_dequant_quotient_sub c hd, div_eq_mul_one_div (d.toNat : ℚ) 2, mul_right_inj' hpos.ne',
    rha_tie_iff]
  simp only [← mul_div_assoc, div_eq_iff hpos.ne']

theorem dequant_quant_le (c : ℚ) (d : Divisor) : (dequant (quant c d) d : ℚ) ≤ 127 * d.toNat := by
  rw [dequant_cast]
  exact mul_le_mul_of_nonneg_right (by exact_mod_cast clamp8_le _) (Nat.cast_nonneg _)

/-- Above the range of a byte the error grows with the coefficient. -/
theorem exists_lt_abs_dequant_quant_sub (b : ℚ) (d : Divisor) :
    ∃ c : ℚ, b < |(dequant (quant c d) d : ℚ) - c| := by
  refine ⟨b + 1 + 127 * d.toNat, ?_⟩
  rw [abs_sub_comm]
  refine lt_of_lt_of_le ?_ (le_abs_self _)
  linarith [dequant_quant_le (b + 1 + 127 * d.toNat) d]

theorem quotient_dequant (q : ℤ) {d : Divisor} (hd : d ≠ 0) : quotient (dequant q d : ℚ) d = q := by
  rw [quotient, dequant_cast, mul_div_cancel_right₀ _ (toNat_cast_pos hd).ne', rha_intCast]

/-! ### Blocks (R71, R73) -/

theorem quantClamps_iff (S : FBlock) (T : QTable) :
    quantClamps S T = true ↔
      ∃ i : Elem, quotient (fval S[i]) T[i] < -128 ∨ 127 < quotient (fval S[i]) T[i] := by
  simp [quantClamps, quant, ← clamp8_ne_self_iff]

theorem quantBlock_get (S : FBlock) (T : QTable) (i : Elem) :
    (quantBlock S T)[i] = enc8 (quant (fval S[i]) T[i]) := by
  simp [quantBlock]

end Sys2Proof.Machine
end

section
/-! PROOF. The commands QUANT and DEQUANT (`41_quantize.md` R73, R76, R77): the error bound, the saturation
flag, the zero divisor. -/

namespace Sys2Proof.Machine

theorem commandResult_quant_qsat (d n : BufIdx) (s : State) : (commandResult (.quant d n) s).qsat =
    (s.qsat || quantClamps (s.readF n) s.qt) := rfl

theorem commandResult_quant_readQ (d n : BufIdx) (s : State) :
    (commandResult (.quant d n) s).readQ d = quantBlock (s.readF n) s.qt :=
  readQ_writeQ_same s d _

/-- A command that leaves `FAULT` at 0 has passed its checks. -/
theorem eq_commandResult_of_exec {i : Instr} {s t : State} (h : exec i s = .next t) (hf : t.fault = false) :
    t = commandResult i s := by
  obtain ⟨-, ⟨c, -, rfl⟩ | ⟨-, rfl⟩⟩ := exec_cases h
  · cases hf
  · rfl

/-- `QSAT` after a QUANT that succeeds (R73). -/
theorem exec_quant_qsat_iff {d n : BufIdx} {s t : State} (h : exec (.quant d n) s = .next t)
    (hf : t.fault = false) : t.qsat = true ↔ s.qsat = true ∨
      ∃ i : Elem, quotient (fval (s.readF n)[i]) s.qt[i] < -128 ∨
        127 < quotient (fval (s.readF n)[i]) s.qt[i] := by
  rw [eq_commandResult_of_exec h hf, commandResult_quant_qsat, Bool.or_eq_true, quantClamps_iff]

/-- Settles O19: inside the range the error is the rounding's, scaled by the divisor; outside it `quant` is
the end of the range. -/
theorem quantErrorBound : Obligations.QuantErrorBound := by
  intro c d hd
  refine ⟨quotient_mem_iff c hd, fun hlow hhigh => ?_, fun hgt => ?_, fun hlt => ?_,
    fun b => exists_lt_abs_dequant_quant_sub b d, fun q hlow hhigh => ?_, ?_⟩
  · rw [show quant c d = quotient c d from clamp8_of_mem hlow hhigh]
    exact ⟨abs_dequant_quotient_sub_le c hd, abs_dequant_quotient_sub_eq_iff c hd⟩
  · rw [quant_of_gt hgt, dequant_cast]; norm_num
  · rw [quant_of_lt hlt, dequant_cast]; norm_num
  · exact ⟨by rw [quant, quotient_dequant q hd, clamp8_of_mem hlow hhigh], quotient_dequant q hd⟩
  · rintro e n s t i h hf rfl rfl hclamp
    exact (exec_quant_qsat_iff h hf).mpr (.inr ⟨i, hclamp⟩)

/-- The bytes of a clamped element, in a QUANT that succeeds all the same (R73). -/
theorem exec_quant_clamped_bytes {d n : BufIdx} {s : State} (hb : s.busy = true) (hf : s.fault = false)
    (hfin : ∀ j : Elem, finite (s.readF n)[j] = true) (hqt : ∀ j : Elem, s.qt[j] ≠ 0) :
    ∃ t, exec (.quant d n) s = .next t ∧ t.fault = false ∧
      ∀ i : Elem, (127 < quotient (fval (s.readF n)[i]) s.qt[i] → (t.readQ d)[i] = 0x7F) ∧
        (quotient (fval (s.readF n)[i]) s.qt[i] < -128 → (t.readQ d)[i] = 0x80) := by
  have hcheck : commandCheck (.quant d n) s = none := (checkQuant_none_iff _ _).mpr ⟨hfin, hqt⟩
  refine ⟨_, exec_result _ s hb hcheck, hf, fun i => ?_⟩
  rw [commandResult_quant_readQ, quantBlock_get]
  exact ⟨fun h => by rw [quant_of_gt h]; rfl, fun h => by rw [quant_of_lt h]; rfl⟩

/-- Settles O20: what a QUANT does to `QSAT`, that no other command touches it, and the three resets. -/
theorem saturationFlag : Obligations.SaturationFlag := by
  refine ⟨fun d n s t => exec_quant_qsat_iff, fun i s t hi h => ?_, fun d n s => exec_quant_clamped_bytes,
    fun s => ⟨?_, ?_, rfl⟩⟩
  · by_contra hne
    obtain ⟨⟨d, n, hquant⟩, -⟩ := exec_qsat_ne h hne
    exact hi d n hquant
  · rw [hostWrite_ctrl_clrsat s _ (by decide) (by decide), State.clrSat_qsat]
  · rw [hostWrite_ctrl_srst s _ (by decide), State.softReset_qsat]

/-! ### A zero divisor (R76) -/

section zeroDivisor
variable {s : State} (hb : s.busy = true) (hz : ∃ j : Elem, s.qt[j] = 0)
include hb hz

theorem exec_dequant_zero (d n : BufIdx) : exec (.dequant d n) s = .next (s.raiseFault .zeroDivisor) :=
  exec_faults _ s hb _ (checkDequant_zero s.qt hz)

theorem exec_quant_zero (d n : BufIdx) (hfin : ∀ j : Elem, finite (s.readF n)[j] = true) :
    exec (.quant d n) s = .next (s.raiseFault .zeroDivisor) :=
  exec_faults _ s hb _ (checkQuant_zero _ s.qt hfin hz)

/-- Whatever the coefficients are, QUANT faults; the cause depends on them (R103). -/
theorem exec_quant_faults_of_zero (d n : BufIdx) : ∃ c, exec (.quant d n) s = .next (s.raiseFault c) := by
  by_cases hfin : ∀ j : Elem, finite (s.readF n)[j] = true
  · exact ⟨_, exec_quant_zero hb hz d n hfin⟩
  · have hnon : ∃ j : Elem, finite (s.readF n)[j] = false := by simpa using hfin
    exact ⟨_, exec_faults _ s hb _ (checkQuant_nonfinite _ s.qt hnon)⟩

end zeroDivisor

/-- Settles O26: a zero divisor is the fault of both checks, and a hard reset leaves only zero divisors. -/
theorem zeroDivisor : Obligations.ZeroDivisor := by
  refine ⟨fun d n s hb hz => ⟨exec_dequant_zero hb hz d n, exec_quant_zero hb hz d n⟩, ?_⟩
  intro d n s t ht
  have hb : t.busy = true := by rw [ht]
  have hz : ∃ j : Elem, t.qt[j] = 0 := ⟨0, by simp [ht]⟩
  obtain ⟨c, hc⟩ := exec_quant_faults_of_zero hb hz d n
  exact ⟨exec_dequant_zero hb hz d n, _, hc, rfl, rfl, rfl⟩

end Sys2Proof.Machine
end

section
/-! PROOF. The reorder commands ZZF and ZZI (`42_reorder.md` R85): gather and scatter undo each other under
a bijection, and both permute the bytes. -/

namespace Sys2Proof.Machine

/-! ### The two permutations -/

theorem qblock_ext {a b : QBlock} (h : ∀ i : Elem, a[i] = b[i]) : a = b :=
  Vector.ext fun i hi => h ⟨i, hi⟩

section permutations
variable {zz : ZTable} (hz : ZigzagBijective zz) (b : QBlock)
include hz

theorem gather_scatter : gather zz (scatter zz b) = b :=
  qblock_ext fun i => (gather_get zz _ i).trans (scatter_get zz b hz i)

/-- Each index is some `zz[i]`, where the scatter law speaks. -/
theorem scatter_gather : scatter zz (gather zz b) = b := by
  refine qblock_ext fun j => ?_
  obtain ⟨i, rfl⟩ := hz.2 j
  exact (scatter_get zz _ hz i).trans (gather_get zz b i)

/-- The gather reads the block along a permutation of its indices. -/
theorem gather_perm : (gather zz b).toList.Perm b.toList := by
  have hb : b.toList = List.ofFn fun i : Elem => b[i] :=
    (congrArg Vector.toList Vector.ofFn_getElem.symm).trans Vector.toList_ofFn
  rw [hb, gather, Vector.toList_ofFn]
  exact Equiv.Perm.ofFn_comp_perm (Equiv.ofBijective _ hz) fun i : Elem => b[i]

/-- The scattered block gathers to the old one, and the gather permutes. -/
theorem scatter_perm : (scatter zz b).toList.Perm b.toList := by
  simpa only [gather_scatter hz] using (gather_perm hz (scatter zz b)).symm

end permutations

/-! ### The commands -/

/-- With `BUSY = 1` the command leaves in its destination what `f` makes of its source under the table, and
leaves the table. -/
def Reorders (c : BufIdx → BufIdx → Instr) (f : ZTable → QBlock → QBlock) : Prop :=
  ∀ (d n : BufIdx) (s : State), s.busy = true →
    ∃ t, exec (c d n) s = .next t ∧ t.zz = s.zz ∧ t.readQ d = f s.zz (s.readQ n)

theorem zzf_reorders : Reorders .zzf scatter := fun d _ s hb =>
  ⟨_, exec_result _ s hb rfl, rfl, readQ_writeQ_same s d _⟩

theorem zzi_reorders : Reorders .zzi gather := fun d _ s hb =>
  ⟨_, exec_result _ s hb rfl, rfl, readQ_writeQ_same s d _⟩

/-- The second command meets the table and the block the first one left, so it undoes it where `g` undoes
`f`. -/
theorem Reorders.undo {c₁ c₂ : BufIdx → BufIdx → Instr} {f g : ZTable → QBlock → QBlock}
    (h₁ : Reorders c₁ f) (h₂ : Reorders c₂ g) (d e n : BufIdx) {s : State} (hb : s.busy = true)
    (hinv : ∀ b, g s.zz (f s.zz b) = b) (hperm : ∀ b, (f s.zz b).toList.Perm b.toList) :
    ∃ t u, exec (c₁ d n) s = .next t ∧ exec (c₂ e d) { t with busy := true } = .next u ∧
      u.readQ e = s.readQ n ∧ (t.readQ d).toList.Perm (s.readQ n).toList := by
  obtain ⟨t, ht, hzz, hT⟩ := h₁ d n s hb
  obtain ⟨u, hu, -, hU⟩ := h₂ e d { t with busy := true } rfl
  refine ⟨t, u, ht, hu, ?_, ?_⟩
  · calc u.readQ e = g t.zz (t.readQ d) := hU
      _ = s.readQ n := by rw [hzz, hT, hinv]
  · rw [hT]; exact hperm _

/-- Settles O21: under a bijective table the scatter and the gather are inverse permutations. -/
theorem reorderInverse : Obligations.ReorderInverse := fun d e n _ hb hz =>
  ⟨zzf_reorders.undo zzi_reorders d e n hb (gather_scatter hz) (scatter_perm hz),
    zzi_reorders.undo zzf_reorders d e n hb (scatter_gather hz) (gather_perm hz)⟩

end Sys2Proof.Machine
end

section
/-! What a write to `CTRL` does, by the two low bits of its word (`43_system_and_host.md` R90 to R92). -/

namespace Sys2Proof.Machine

theorem getLsbD_of_extractLsb'_low {w : Word} {v : BitVec 2} (h : w.extractLsb' 0 2 = v) {i : Nat}
    (hi : i < 2 := by decide) : w.getLsbD i = v.getLsbD i := by
  simp [← h, hi]

/-- The mask keeps the two bits `writeCtrl` reads. -/
theorem State.writeCtrl_and_three (s : State) (w : Word) : s.writeCtrl (w &&& 3) = s.writeCtrl w := by
  have h0 : (w &&& 3).getLsbD 0 = w.getLsbD 0 := by simp
  have h1 : (w &&& 3).getLsbD 1 = w.getLsbD 1 := by simp
  rw [State.writeCtrl, State.writeCtrl, h0, h1]

/-- Settles O34: each value of bits 1:0 gives the bits that choose the operation, and the mask keeps them. -/
theorem ctrlOperations : Obligations.CtrlOperations := by
  intro s w
  refine ⟨fun h => ?none, fun h => ?srst, fun h => ?clrsat, ?upper, hostRead_ctrl _⟩
  case none =>
    exact hostWrite_ctrl_none s w (getLsbD_of_extractLsb'_low h) (getLsbD_of_extractLsb'_low h)
  case srst =>
    have h0 : w.getLsbD 0 = true := h.elim (getLsbD_of_extractLsb'_low ·) (getLsbD_of_extractLsb'_low ·)
    exact hostWrite_ctrl_srst s w h0
  case clrsat =>
    exact hostWrite_ctrl_clrsat s w (getLsbD_of_extractLsb'_low h) (getLsbD_of_extractLsb'_low h)
  case upper => rw [hostWrite_ctrl, hostWrite_ctrl, State.writeCtrl_and_three]

end Sys2Proof.Machine
end

section
/-! PROOF. The fault of a command (`60_exceptions.md` R101 to R104): which cause it reports, and what the
fault does. -/

namespace Sys2Proof.Machine

/-! ### The check of a command against the table of conditions (R101 to R103) -/

/-- The cause R103 has the command report: its condition holds, and no condition with a lower code does. -/
def LowestCause (i : Instr) (s : State) (c : Cause) : Prop :=
  FaultCondition i s c ∧ ∀ c' : Cause, FaultCondition i s c' → c.code.toNat ≤ c'.code.toNat

theorem Cause.code_toNat_injective : Function.Injective fun c : Cause => c.code.toNat := by
  intro c c' h
  cases c <;> cases c' <;> simp [Cause.code] at h ⊢

theorem Cause.one_le_code (c : Cause) : 1 ≤ c.code.toNat := by cases c <;> decide

theorem LowestCause.unique {i : Instr} {s : State} {c c' : Cause} (h : LowestCause i s c)
    (h' : LowestCause i s c') : c = c' :=
  Cause.code_toNat_injective (le_antisymm (h.2 c' h'.1) (h'.2 c h.1))

/-- A condition of R101 is stated only for a pair the table of R102 marks; for any other pair (the last arm
of both) it is false. -/
theorem FaultCondition.mayRaise {i : Instr} {s : State} {c : Cause} (h : FaultCondition i s c) :
    mayRaise i c = true := by
  unfold FaultCondition at h
  split at h
  case h_8 => exact h.elim
  all_goals rfl

/-- Code 1 is the illegal word's: no command has its condition. -/
theorem FaultCondition.two_le_code {i : Instr} {s : State} {c : Cause} (h : FaultCondition i s c) :
    2 ≤ c.code.toNat := by
  cases c with
  | illegalCmd => cases i <;> exact h.elim
  | operandNonfinite | operandRange | zeroDivisor => decide

/-- Code 2 is the lowest whenever its condition holds. -/
theorem LowestCause.operandNonfinite {i : Instr} {s : State} (h : FaultCondition i s .operandNonfinite) :
    LowestCause i s .operandNonfinite :=
  ⟨h, fun _ hc => hc.two_le_code⟩

theorem State.not_hasNonfinite {s : State} {n : BufIdx} (h : ∀ j : Elem, finite (s.readF n)[j] = true) :
    ¬s.HasNonfinite n := by
  rintro ⟨j, hj⟩
  exact ne_true_of_eq_false hj (h j)

theorem State.hasOverRange_of_overRange {s : State} {n : BufIdx}
    (hfin : ∀ j : Elem, finite (s.readF n)[j] = true) (hover : ∃ j : Elem, overRange (s.readF n)[j] = true) :
    s.HasOverRange n :=
  ⟨hfin, hover.imp fun j hj => (overRange_iff _ (hfin j)).mp hj⟩

/-- The order of the tests in a check is that of the codes. -/
theorem lowestCause_of_commandCheck {i : Instr} {s : State} {c : Cause} (h : commandCheck i s = some c) :
    LowestCause i s c := by
  cases i with
  | fdct d n | idct d n =>
    obtain ⟨rfl, hnon⟩ | ⟨rfl, hfin, hover⟩ := checkTransform_cause h
    · exact .operandNonfinite hnon
    · refine ⟨State.hasOverRange_of_overRange hfin hover, fun c' hc' => ?_⟩
      cases c' with
      | operandNonfinite => exact absurd hc' (State.not_hasNonfinite hfin)
      | operandRange => exact le_rfl
      | illegalCmd | zeroDivisor => exact hc'.elim
  | quant d n =>
    obtain ⟨rfl, hnon⟩ | ⟨rfl, hfin, hzero⟩ := checkQuant_cause h
    · exact .operandNonfinite hnon
    · refine ⟨hzero, fun c' hc' => ?_⟩
      cases c' with
      | operandNonfinite => exact absurd hc' (State.not_hasNonfinite hfin)
      | zeroDivisor => exact le_rfl
      | illegalCmd | operandRange => exact hc'.elim
  | dequant d n =>
    obtain ⟨rfl, hzero⟩ := checkDequant_cause h
    refine ⟨hzero, fun c' hc' => ?_⟩
    cases c' with
    | zeroDivisor => exact le_rfl
    | illegalCmd | operandNonfinite | operandRange => exact hc'.elim
  | zzf d n | zzi d n => cases h

/-- A check passes only where no condition holds. -/
theorem commandCheck_ne_none {i : Instr} {s : State} {c : Cause} (h : FaultCondition i s c) :
    commandCheck i s ≠ none := by
  intro hnone
  cases i with
  | fdct d n | idct d n =>
    have hok := (inRange_iff _).mp ((checkTransform_none_iff (s.readF n)).mp hnone)
    cases c with
    | operandNonfinite => exact State.not_hasNonfinite (fun j => (hok j).1) h
    | operandRange =>
      obtain ⟨-, j, hj⟩ := h
      exact hj.not_ge (hok j).2
    | illegalCmd | zeroDivisor => exact h
  | quant d n =>
    obtain ⟨hfin, hqt⟩ := (checkQuant_none_iff (s.readF n) s.qt).mp hnone
    cases c with
    | operandNonfinite => exact State.not_hasNonfinite hfin h
    | zeroDivisor =>
      obtain ⟨j, hj⟩ := h
      exact hqt j hj
    | illegalCmd | operandRange => exact h
  | dequant d n =>
    have hqt := (checkDequant_none_iff s.qt).mp hnone
    cases c with
    | zeroDivisor =>
      obtain ⟨j, hj⟩ := h
      exact hqt j hj
    | illegalCmd | operandNonfinite | operandRange => exact h
  | zzf d n | zzi d n => exact h

/-- A command's check answers exactly the cause of R103. -/
theorem commandCheck_eq_some_iff {i : Instr} {s : State} {c : Cause} :
    commandCheck i s = some c ↔ LowestCause i s c := by
  refine ⟨lowestCause_of_commandCheck, fun h => ?_⟩
  obtain ⟨c', hc'⟩ := Option.ne_none_iff_exists'.mp (commandCheck_ne_none h.1)
  rw [hc', (lowestCause_of_commandCheck hc').unique h]

theorem commandCheck_eq_none {i : Instr} {s : State} (h : ∀ c : Cause, ¬FaultCondition i s c) :
    commandCheck i s = none := by
  by_contra hne
  obtain ⟨c, hc⟩ := Option.ne_none_iff_exists'.mp hne
  exact h c (lowestCause_of_commandCheck hc).1

/-- Settles O23: the command's check answers the lowest cause, and nothing where no condition holds. -/
theorem oneCauseLowestCode : Obligations.OneCauseLowestCode := by
  refine fun s hb => ⟨fun ⟨e, he⟩ => complete_error he hb, fun i hi => ⟨fun c hc hlow => ?_, fun hnone => ?_⟩⟩
  · exact (complete_ok hi).trans (exec_faults i s hb c (commandCheck_eq_some_iff.mpr ⟨hc, hlow⟩))
  · obtain ⟨-, hfault, hcause, -⟩ := commandResult_frame i s
    exact ⟨_, (complete_ok hi).trans (exec_result i s hb (commandCheck_eq_none hnone)), hfault, hcause⟩

/-! ### What a fault does (R104) -/

theorem State.statusWord_getLsbD_one (s : State) : s.statusWord.getLsbD 1 = s.fault := by
  simp only [State.statusWord, BitVec.getLsbD_append]
  simp

/-- A command that sets `FAULT` has taken the fault of its check. -/
theorem exec_fault_set {i : Instr} {s t : State} (h : exec i s = .next t) (hs : s.fault = false)
    (ht : t.fault = true) : ∃ c, commandCheck i s = some c ∧ t = s.raiseFault c := by
  obtain ⟨-, hfaulted | ⟨-, rfl⟩⟩ := exec_cases h
  · exact hfaulted
  · obtain ⟨-, hfault, -⟩ := commandResult_frame i s
    simp [hfault, hs] at ht

/-- The engine's step sets `FAULT` only by the one fault entry. -/
theorem complete_fault_set {s t : State} (h : complete s = .next t) (hs : s.fault = false)
    (ht : t.fault = true) : ∃ c, t = s.raiseFault c := by
  obtain ⟨hb, ⟨-, rfl⟩ | ⟨i, hi, -⟩⟩ := complete_cases h
  · exact ⟨_, rfl⟩
  · obtain ⟨c, -, hc⟩ := exec_fault_set ((complete_ok hi).symm.trans h) hs ht
    exact ⟨c, hc⟩

/-- Settles O24: the new state is that of the fault entry, and bit 1 of `STATUS` is `FAULT`. -/
theorem faultEntry : Obligations.FaultEntry := by
  intro s t hs h ht
  obtain ⟨c, hc⟩ := complete_fault_set h hs ht
  exact ⟨⟨c, hc, c.one_le_code, c.code_le_four⟩, by rw [hostRead_status, t.statusWord_getLsbD_one, ht]⟩

end Sys2Proof.Machine
end

section
/-! PROOF. The host's transfers and the faulted state (`60_exceptions.md` R102, R106, R107): none enters it,
and only a reset leaves it. -/

namespace Sys2Proof.Machine

/-! ### What a transfer does to the fault -/

/-- The state with other values in `FAULT` and `CAUSE`. -/
def State.setFault (s : State) (f : Bool) (c : BitVec 4) : State := { s with fault := f, cause := c }

theorem locate_eq_cmd_iff : ∀ a : WordAddr, locate a = .cmd ↔ a = 0x000 := by decide +kernel

theorem locate_eq_ctrl_iff : ∀ a : WordAddr, locate a = .ctrl ↔ a = 0x002 := by decide +kernel

/-- Neither a write to `CMD` nor an SRST: a write that does the same in the faulted state (R106). -/
def WorksFaulted (a : WordAddr) (w : Word) : Prop := a ≠ 0x000 ∧ (a = 0x002 → w.getLsbD 0 = false)

/-- Such a write does not look at `FAULT` and `CAUSE`, and leaves them and `CMD` alone. -/
theorem WorksFaulted.hostWrite_setFault {a : WordAddr} {w : Word} (h : WorksFaulted a w) (s : State)
    (f : Bool) (c : BitVec 4) : (s.setFault f c).hostWrite a w = (s.hostWrite a w).setFault f c ∧
      (s.hostWrite a w).cmd = s.cmd := by
  obtain ⟨hcmd, hctrl⟩ := h
  unfold State.hostWrite
  cases hloc : locate a with
  | cmd => exact absurd ((locate_eq_cmd_iff a).mp hloc) hcmd
  | ctrl =>
    simp only [State.writeCtrl, hctrl ((locate_eq_ctrl_iff a).mp hloc)]
    cases w.getLsbD 1 <;> exact ⟨rfl, rfl⟩
  | status | qt | zz | f | q | reserved => exact ⟨rfl, rfl⟩

theorem WorksFaulted.hostWrite_frame {a : WordAddr} {w : Word} (h : WorksFaulted a w) (s : State) :
    (s.hostWrite a w).fault = s.fault ∧ (s.hostWrite a w).cause = s.cause ∧
      (s.hostWrite a w).cmd = s.cmd := by
  obtain ⟨hset, hcmd⟩ := h.hostWrite_setFault s s.fault s.cause
  have hself : s.hostWrite a w = (s.hostWrite a w).setFault s.fault s.cause := hset
  exact ⟨by rw [hself]; rfl, by rw [hself]; rfl, hcmd⟩

/-- A write is an acceptance, a soft reset, or leaves `FAULT` alone. -/
theorem hostWrite_not_fault {s : State} (hs : s.fault = false) (a : WordAddr) (w : Word) :
    (s.hostWrite a w).fault = false := by
  by_cases hcmd : a = 0x000
  · rw [hcmd, hostWrite_cmd_of_not_fault s w hs, State.accept_fault, hs]
  by_cases hsrst : a = 0x002 ∧ w.getLsbD 0 = true
  · rw [hsrst.1, hostWrite_ctrl_srst s w hsrst.2, State.softReset_fault]
  · have hw : WorksFaulted a w := ⟨hcmd, fun ha => by simpa [ha] using hsrst⟩
    rw [(hw.hostWrite_frame s).1, hs]

theorem perform_not_fault {s : State} (hs : s.fault = false) (e : HostEvent) (rest : List HostEvent) :
    (s.perform e rest).fault = false := by
  cases e with
  | read a | wait => exact hs
  | write a w => exact hostWrite_not_fault hs a w
  | hardReset => rfl

/-- In the faulted state a write to `CMD` is dropped, and every other write but an SRST keeps the fault. -/
theorem hostWrite_faulted {s : State} (hs : s.fault = true) {a : WordAddr} {w : Word}
    (hsrst : a = 0x002 → w.getLsbD 0 = false) :
    (s.hostWrite a w).fault = true ∧ (s.hostWrite a w).cause = s.cause ∧
      (s.hostWrite a w).cmd = s.cmd := by
  by_cases hcmd : a = 0x000
  · rw [hcmd, hostWrite_cmd_of_fault s w hs]
    exact ⟨hs, rfl, rfl⟩
  · rw [← hs]
    exact WorksFaulted.hostWrite_frame ⟨hcmd, hsrst⟩ s

theorem perform_faulted {s : State} (hs : s.fault = true) {e : HostEvent} (rest : List HostEvent)
    (hreset : e ≠ .hardReset) (hsrst : ∀ w, e = .write 0x002 w → w.getLsbD 0 = false) :
    (s.perform e rest).fault = true ∧ (s.perform e rest).cause = s.cause ∧
      (s.perform e rest).cmd = s.cmd := by
  cases e with
  | read a | wait => exact ⟨hs, rfl, rfl⟩
  | write a w => exact hostWrite_faulted hs fun ha => hsrst w (by rw [ha])
  | hardReset => exact absurd rfl hreset

/-! ### Which command can raise which cause (R102) -/

/-- An element that meets the condition of a cause about the operands, and 0 for the other causes. -/
def causeWord : Cause → Word
  | .operandNonfinite => 0x7F800000
  | .operandRange => 0x4B800001
  | .illegalCmd | .zeroDivisor => 0

/-- An accepted command with that element throughout the F buffers and the table of the reset, all 0. -/
def causeState (c : Cause) : State :=
  { State.reset with fbuf := Vector.replicate 2 (Vector.replicate 64 (causeWord c)), busy := true }

theorem causeState_readF (c : Cause) (n : BufIdx) (j : Elem) : ((causeState c).readF n)[j] = causeWord c := by
  simp [causeState, State.readF]

theorem causeState_qt (c : Cause) : ∃ j : Elem, (causeState c).qt[j] = 0 :=
  ⟨0, by simp [causeState, State.reset]⟩

/-- Each marked pair is reached in the state of its cause, whatever the operands of the command. -/
theorem commandCheck_causeState {i : Instr} {c : Cause} (h : mayRaise i c = true) :
    commandCheck i (causeState c) = some c := by
  have hnon : ∀ n, ∃ j : Elem, finite ((causeState .operandNonfinite).readF n)[j] = false := fun n =>
    ⟨0, by rw [causeState_readF]; decide⟩
  cases i with
  | fdct d n | idct d n =>
    cases c with
    | operandNonfinite => exact checkTransform_nonfinite _ (hnon n)
    | operandRange =>
      exact checkTransform_range _ (fun j => by rw [causeState_readF]; decide)
        ⟨0, by rw [causeState_readF]; decide⟩
    | illegalCmd | zeroDivisor => cases h
  | quant d n =>
    cases c with
    | operandNonfinite => exact checkQuant_nonfinite _ _ (hnon n)
    | zeroDivisor =>
      exact checkQuant_zero _ _ (fun j => by rw [causeState_readF]; decide) (causeState_qt _)
    | illegalCmd | operandRange => cases h
  | dequant d n =>
    cases c with
    | zeroDivisor => exact checkDequant_zero _ (causeState_qt _)
    | illegalCmd | operandNonfinite | operandRange => cases h
  | zzf d n | zzi d n => cases c <;> cases h

/-- Settles O25: a command's fault is the cause of its check, whose condition the table marks; each marked
cause has a state; no transfer sets `FAULT`. -/
theorem faultMatrix : Obligations.FaultMatrix := by
  refine ⟨fun s hb ⟨e, he⟩ => complete_error he hb, fun i s t hs h ht => ?_, fun i c hc => ?_,
    fun s e rest hs => perform_not_fault hs e rest⟩
  · obtain ⟨c, hc, rfl⟩ := exec_fault_set h hs ht
    exact ⟨c, (commandCheck_eq_some_iff.mp hc).1.mayRaise, rfl⟩
  · exact ⟨causeState c, _, rfl, exec_faults i _ rfl c (commandCheck_causeState hc), rfl, rfl⟩

/-! ### The faulted state (R106, R107) -/

/-- Settles O27: a dropped command changes nothing; every other transfer is that of the state with the fault
cleared, and such a state with its fault set again is the old one. -/
theorem faultedDropsCommands : Obligations.FaultedDropsCommands := by
  refine ⟨fun s w rest hs hb hh => ?_, ?_⟩
  · rw [step_write_of_idle hb hh, hostWrite_cmd_of_fault s w hs]
  rintro s s' a w hs rfl
  have hself : s = (s.setFault false 0).setFault true s.cause := by rw [← hs]; rfl
  have hwrite : ∀ {b : WordAddr}, WorksFaulted b w →
      s.hostWrite b w = ((s.setFault false 0).hostWrite b w).setFault true s.cause := fun hb => by
    rw [← (hb.hostWrite_setFault _ _ _).1, ← hself]
  refine ⟨fun ha => hostRead_congr ha rfl rfl rfl (fun _ _ _ => rfl) fun _ _ _ => rfl,
    fun hcmd hctrl => hwrite ⟨hcmd, fun ha => absurd ha hctrl⟩, fun h0 => ?_,
    fun h0 => hwrite ⟨by decide, fun _ => h0⟩⟩
  rw [hostWrite_ctrl_srst _ w h0, hostWrite_ctrl_srst _ w h0]
  rfl

theorem State.Inv.not_busy {s : State} (hi : s.Inv) (hs : s.fault = true) : s.busy = false := by
  cases hb : s.busy with
  | false => rfl
  | true => simp [hi.busy_not_fault hb] at hs

/-- With `BUSY = 0` and nothing asked for, a step changes nothing (R113). -/
theorem step_of_no_host {s : State} (hb : s.busy = false) (hh : s.host = []) : step s = .next s := by
  simp [step, State.nextMove, hh, hb]

/-- Settles O28: a faulted engine is idle, so the step is the host's event, and only the two resets touch the
fault. -/
theorem onlyResetLeavesFault : Obligations.OnlyResetLeavesFault := by
  intro s hi hs
  have hb : s.busy = false := hi.not_busy hs
  refine ⟨fun w rest hh h0 => ?_, fun rest hh => ⟨step_of_idle hb hh, rfl⟩, fun hreset hsrst => ?_⟩
  · rw [step_write_of_idle hb hh, hostWrite_ctrl_srst s w h0]
    rfl
  · cases hh : s.host with
    | nil => exact ⟨s, step_of_no_host hb hh, hs, rfl, rfl⟩
    | cons e rest =>
      refine ⟨_, step_of_idle hb hh, perform_faulted hs rest ?_ ?_⟩
      · rintro rfl
        exact hreset rest hh
      · rintro w rfl
        exact hsrst w rest hh

end Sys2Proof.Machine
end

section
/-! PROOF. Decoding and encoding agree in both directions (R50 to R53). -/

namespace Sys2Proof

theorem bufIdxOfField_injective : Function.Injective bufIdxOfField := fun _ _ => BitVec.toFin_inj.mp

/-- A command has one word: the five fields of a word are given by the command it decodes to. -/
theorem eq_of_decode_eq_ok {v w : Word} {i : Instr} (hv : decode v = .ok i) (hw : decode w = .ok i) :
    v = w := by
  obtain ⟨hvrz2, hvrz1, hvop, hvdst, hvsrc⟩ := fields_of_decode hv
  obtain ⟨hwrz2, hwrz1, hwop, hwdst, hwsrc⟩ := fields_of_decode hw
  apply CommandFields.ofWord_injective
  have hop : (CommandFields.ofWord v).op = (CommandFields.ofWord w).op :=
    BitVec.eq_of_toNat_eq (hvop.trans hwop.symm)
  have hdst : (CommandFields.ofWord v).dst = (CommandFields.ofWord w).dst :=
    bufIdxOfField_injective (hvdst.trans hwdst.symm)
  have hsrc : (CommandFields.ofWord v).src = (CommandFields.ofWord w).src :=
    bufIdxOfField_injective (hvsrc.trans hwsrc.symm)
  exact (CommandFields.mk.injEq ..).mpr ⟨hop, hsrc, hvrz1.trans hwrz1.symm, hdst, hvrz2.trans hwrz2.symm⟩

/-- Settles O2: an encoded command decodes to itself, and no second word decodes to it. -/
theorem decodeEncodeAgree : Obligations.DecodeEncodeAgree := fun _ i =>
  ⟨eq_of_decode_eq_ok (decode_encode i), fun h => h ▸ decode_encode i⟩

/-- Settles O1: fifteen fixed words, evaluated. -/
theorem decodeSpecWords : Obligations.DecodeSpecWords := by
  unfold Obligations.DecodeSpecWords
  decide

end Sys2Proof
end

section
/-! PROOF. Which agent moves, and runs of many steps (R43, R58, R96, R121): no step stops the machine, every
run ends, and nothing of a command in progress can be seen. -/

namespace Sys2Proof.Machine

/-! ### The engine's move (R58) -/

theorem nextMove_of_no_host {s : State} (hb : s.busy = true) (hh : s.host = []) : s.nextMove = .engine := by
  simp [State.nextMove, hh, hb]

theorem isStatusRead_eq_false {e : HostEvent} (hread : e ≠ .read 0x001) (hwait : e ≠ .wait) :
    isStatusRead e = false := by
  cases e with
  | read a => rw [isStatusRead_read, decide_eq_false fun ha => hread (by rw [ha])]
  | wait => exact absurd rfl hwait
  | write | hardReset => rfl

/-- Settles O5: in each of the three cases the engine moves, and its step is `complete`. -/
theorem engineStepRunsDecodedCommand : Obligations.EngineStepRunsDecodedCommand := by
  intro s hb hcase
  have hmove : s.nextMove = .engine := by
    rcases hcase with hh | hl | ⟨e, rest, hh, hread, hwait, hreset, hr⟩
    · exact nextMove_of_no_host hb hh
    · exact nextMove_of_lat_zero hb hl
    · exact nextMove_of_held hb hh (isStatusRead_eq_false hread hwait) hreset hr
  have hstep : step s = complete s := step_of_engine hmove
  exact ⟨hstep, fun i hi => hstep.trans (complete_ok hi), fun e he => hstep.trans (complete_error he hb)⟩

/-- Settles O6: without `BUSY` a command's meaning stops, with it it goes on and clears `BUSY`. -/
theorem completeEnabledExactlyWhenBusy : Obligations.CompleteEnabledExactlyWhenBusy := by
  refine fun i s => ⟨exec_not_busy i s, fun hb => ?_⟩
  obtain ⟨t, ht⟩ := exec_total i s hb
  obtain ⟨-, -, -, -, -, -, -, htb⟩ := exec_frame ht
  exact ⟨t, ht, htb⟩

/-- Settles O7: one case for each move; the engine moves only where its step goes on. -/
theorem everyStepGoesOn : Obligations.EveryStepGoesOn := by
  intro s
  cases hm : s.nextMove with
  | idle => exact ⟨s, by rw [step, hm]⟩
  | engine =>
    rw [step_of_engine hm]
    exact complete_total s (busy_of_engine hm)
  | host e rest => exact ⟨_, step_of_host hm⟩

/-- Settles O37: the write is the acceptance, and the engine then decodes the command back. -/
theorem commandWriteRunsCommand : Obligations.CommandWriteRunsCommand := by
  intro s i hb hf hh
  refine ⟨_, step_write_of_idle hb hh, ?_, ?_⟩
  · rw [hostWrite_cmd_of_not_fault s _ hf]
    rfl
  · rw [hostWrite_cmd_of_not_fault s _ hf, step_of_engine (nextMove_of_no_host rfl rfl)]
    exact complete_ok (decode_encode i)

/-! ### Reads of `STATUS` while `BUSY = 1` (R41, R43, R96) -/

theorem perform_read_status_of_busy {s : State} (hb : s.busy = true) (rest : List HostEvent) :
    s.perform (.read 0x001) rest =
      { s with reads := s.statusWord :: s.reads, lat := s.lat - 1, host := rest } := by
  simp only [State.perform, State.noteRead, hostRead_status, hb, if_true]

theorem perform_wait_of_busy {s : State} (hb : s.busy = true) (rest : List HostEvent) :
    s.perform .wait rest =
      { s with reads := s.statusWord :: s.reads, lat := s.lat - 1, host := .wait :: rest } := by
  simp only [State.perform, State.noteRead, statusAddr, hostRead_status, hb, if_true]

theorem perform_wait_of_idle {s : State} (hb : s.busy = false) (rest : List HostEvent) :
    s.perform .wait rest = { s with reads := s.statusWord :: s.reads, host := rest } := by
  simp only [State.perform, State.noteRead, statusAddr, hostRead_status, hb, Bool.false_eq_true, if_false]

theorem step_read_status_of_busy {s : State} {rest : List HostEvent} (hb : s.busy = true) (hl : s.lat ≠ 0)
    (hh : s.host = .read 0x001 :: rest) : step s = .next
      { s with reads := s.statusWord :: s.reads, lat := s.lat - 1, host := rest } := by
  rw [step_of_host (nextMove_of_status_read hb hl hh (by simp [isStatusRead_read])),
    perform_read_status_of_busy hb]

theorem step_wait_of_busy {s : State} {rest : List HostEvent} (hb : s.busy = true) (hl : s.lat ≠ 0)
    (hh : s.host = .wait :: rest) :
    step s = .next { s with reads := s.statusWord :: s.reads, lat := s.lat - 1 } := by
  rw [step_of_host (nextMove_of_status_read hb hl hh rfl), perform_wait_of_busy hb, ← hh]

theorem step_wait_of_idle {s : State} {rest : List HostEvent} (hb : s.busy = false)
    (hh : s.host = .wait :: rest) :
    step s = .next { s with reads := s.statusWord :: s.reads, host := rest } := by
  rw [step_of_idle hb hh, perform_wait_of_idle hb]

/-- The events that complete with `BUSY = 1` and keep it: the reads of `STATUS`. -/
theorem perform_isStatusRead {s : State} {e : HostEvent} (hb : s.busy = true) (he : isStatusRead e = true)
    (rest : List HostEvent) : ∃ h, s.perform e rest =
      { s with reads := s.statusWord :: s.reads, lat := s.lat - 1, host := h } := by
  cases e with
  | read a =>
    obtain rfl : a = 0x001 := by simpa [isStatusRead_read] using he
    exact ⟨rest, perform_read_status_of_busy hb rest⟩
  | wait => exact ⟨_, perform_wait_of_busy hb rest⟩
  | write | hardReset => cases he

/-- A step that leaves `BUSY = 1` is a read of `STATUS`. -/
theorem step_of_stays_busy {s t : State} (hb : s.busy = true) (h : step s = .next t) (ht : t.busy = true) :
    s.lat ≠ 0 ∧ ∃ h, t = { s with reads := s.statusWord :: s.reads, lat := s.lat - 1, host := h } := by
  obtain ⟨hm, -⟩ | ⟨-, hc⟩ | ⟨e, rest, hm, rfl⟩ := step_cases h
  · exact absurd hm (nextMove_ne_idle hb)
  · obtain ⟨-, htb, -⟩ := complete_frame hc
    simp [htb] at ht
  · rcases nextMove_host_cases hm with ⟨-, hidle | ⟨hl, he | rfl⟩⟩ | ⟨-, -, rfl, -⟩
    · simp [hb] at hidle
    · exact ⟨hl, perform_isStatusRead hb he rest⟩
    · cases ht
    · cases ht

/-- Settles O36: only a read of `STATUS` leaves `BUSY = 1`, and it uses up latency. -/
theorem busyStateIsFrozen : Obligations.BusyStateIsFrozen := by
  intro s t hb h ht
  obtain ⟨hl, host, rfl⟩ := step_of_stays_busy hb h ht
  exact ⟨rfl, Nat.sub_one_lt hl, rfl⟩

/-- Reads of `STATUS` in a row, by induction on their number. -/
theorem run_status_reads {s : State} {n : Nat} {rest : List HostEvent} (hb : s.busy = true)
    (hn : n ≤ s.lat) (hh : s.host = List.replicate n (.read 0x001) ++ rest) :
    Host.Core.run Sys2Proof.core n s = .next { s with
      reads := List.replicate n s.statusWord ++ s.reads, lat := s.lat - n, host := rest } := by
  induction n generalizing s with
  | zero =>
    obtain rfl : s.host = rest := hh
    rfl
  | succ n ih =>
    rw [List.replicate_succ, List.cons_append] at hh
    have hstep := step_read_status_of_busy hb (by omega) hh
    have hrun := ih (s := { s with
      reads := s.statusWord :: s.reads, lat := s.lat - 1, host := List.replicate n (.read 0x001) ++ rest })
      hb (by simp only; omega) rfl
    rw [run_succ_of_step hstep, hrun]
    simp only [State.statusWord, List.replicate_succ', List.append_assoc, List.singleton_append,
      Nat.sub_sub, Nat.add_comm 1 n]

/-- Settles O52: the acceptance draws the latency, a read of `STATUS` uses one of it up, and so do reads in a
row. -/
theorem statusReadsWhileBusy : Obligations.StatusReadsWhileBusy := by
  refine ⟨fun s w hf => ?_, fun s rest hb hh => ⟨fun hl => step_read_status_of_busy hb hl hh, fun hl => ?_⟩,
    fun s n rest => run_status_reads⟩
  · rw [hostWrite_cmd_of_not_fault s w hf]
    exact ⟨rfl, rfl⟩
  · exact step_of_engine (nextMove_of_lat_zero hb hl)

/-- A wait keeps being asked for until `BUSY = 0`, by induction on the latency left. -/
theorem run_wait_reaches_idle {s : State} {rest : List HostEvent} (hh : s.host = .wait :: rest) :
    ∃ (k : Nat) (t : State), Host.Core.run Sys2Proof.core k s = .next t ∧ t.host = .wait :: rest ∧
      t.busy = false := by
  induction hn : s.lat generalizing s with
  | zero =>
    cases hb : s.busy with
    | false => exact ⟨0, s, rfl, hh, hb⟩
    | true =>
      obtain ⟨t, ht⟩ := complete_total s hb
      obtain ⟨-, htb, -, -, -, hhost, -⟩ := complete_frame ht
      have hstep : step s = .next t := (step_of_engine (nextMove_of_lat_zero hb hn)).trans ht
      exact ⟨1, t, run_succ_of_step hstep 0, hhost.trans hh, htb⟩
  | succ n ih =>
    cases hb : s.busy with
    | false => exact ⟨0, s, rfl, hh, hb⟩
    | true =>
      have hstep := step_wait_of_busy hb (by omega) hh
      obtain ⟨k, t, hrun, ht⟩ := ih
        (s := { s with reads := s.statusWord :: s.reads, lat := s.lat - 1 }) hh (by simp only; omega)
      exact ⟨k + 1, t, (run_succ_of_step hstep k).trans hrun, ht⟩

/-! ### Runs that end (R125) -/

theorem run_add {s t : State} {k : Nat} (h : Host.Core.run Sys2Proof.core k s = .next t) (m : Nat) :
    Host.Core.run Sys2Proof.core (k + m) s = Host.Core.run Sys2Proof.core m t := by
  induction k generalizing s with
  | zero =>
    cases h
    rw [Nat.zero_add]
  | succ k ih =>
    obtain ⟨u, hu⟩ := everyStepGoesOn s
    rw [run_succ_of_step hu] at h
    rw [Nat.succ_add, run_succ_of_step hu, ih h]

/-- Settles O38: each turn of the loop is one step, and the turn after the engine's step ends it. -/
theorem waitPolls : Obligations.WaitPolls := by
  intro s rest hh
  refine ⟨fun hb => step_wait_of_idle hb hh, fun hb hl => step_wait_of_busy hb hl hh,
    fun hb hl => step_of_engine (nextMove_of_lat_zero hb hl), ?_⟩
  obtain ⟨k, t, hrun, hth, htb⟩ := run_wait_reaches_idle hh
  exact ⟨k + 1, _, (run_add hrun 1).trans (run_succ_of_step (step_wait_of_idle htb hth) 0), rfl, htb⟩

theorem perform_host_of_idle {s : State} (hb : s.busy = false) (e : HostEvent) (rest : List HostEvent) :
    (s.perform e rest).host = rest := by
  cases e with
  | wait => rw [perform_wait_of_idle hb]
  | read | write | hardReset => rfl

/-- From an idle engine every event the host has left is performed, by induction on how many there are: each
event is one step, after which finitely many lead to an idle engine again. -/
theorem run_ends_of_idle {s : State} (hb : s.busy = false) : ∃ (k : Nat) (t : State),
    Host.Core.run Sys2Proof.core k s = .next t ∧ t.host = [] ∧ t.busy = false := by
  induction hn : s.host.length using Nat.strong_induction_on generalizing s with
  | _ n ih =>
    cases hh : s.host with
    | nil => exact ⟨0, s, rfl, hh, hb⟩
    | cons e rest =>
      obtain ⟨k, t, hrun, htb, hsuf⟩ := run_reaches_idle (s.perform e rest)
      rw [perform_host_of_idle hb] at hsuf
      have hlt : t.host.length < n := by
        rw [← hn, hh, List.length_cons]
        exact Nat.lt_succ_of_le hsuf.length_le
      obtain ⟨m, u, hrun', hu⟩ := ih _ hlt htb rfl
      exact ⟨k + m + 1, u, by rw [run_succ_of_step (step_of_idle hb hh), run_add hrun, hrun'], hu⟩

/-- Settles O8: finitely many steps lead to an idle engine, and from there the run ends. -/
theorem everyRunEnds : Obligations.EveryRunEnds := by
  intro s
  obtain ⟨k, t, hrun, htb, -⟩ := run_reaches_idle s
  obtain ⟨m, u, hrun', hu⟩ := run_ends_of_idle htb
  exact ⟨k + m, u, (run_add hrun m).trans hrun', hu⟩

end Sys2Proof.Machine
end

section
/-! PROOF. Resets: the columns of R24, the reset state (R25), and a hard reset during a command (R121). -/

namespace Sys2Proof.Machine

/-- Settles O10: the values of the reset state, and the invariant they meet. -/
theorem resetMeetsInvariant : Obligations.ResetMeetsInvariant :=
  ⟨rfl, rfl, rfl, rfl, State.reset_inv⟩

theorem hardReset_qt_get (s : State) (i : Elem) : s.hardReset.qt[i] = 0 := by
  simp

/-- Settles O11: the columns are the two operations' fields, and an idle engine takes the host's event. -/
theorem resetColumns : Obligations.ResetColumns :=
  ⟨fun s => ⟨hardReset_qt_get s, rfl, rfl, rfl, rfl, rfl, rfl, rfl⟩, fun _ _ hb hh => step_of_idle hb hh,
    fun i => by simp [State.reset], rfl, rfl, rfl, rfl, rfl⟩

/-- With latency left a hard reset cuts the command short. -/
theorem nextMove_of_hardReset {s : State} {rest : List HostEvent} (hb : s.busy = true) (hl : s.lat ≠ 0)
    (hh : s.host = .hardReset :: rest) : s.nextMove = .host .hardReset rest := by
  simp [State.nextMove, hh, hb, hl, isStatusRead]

theorem IsHeld.not_statusRead {e : HostEvent} (he : IsHeld e) :
    isStatusRead e = false ∧ e ≠ .hardReset := by
  rcases he with ⟨a, rfl, ha⟩ | ⟨a, w, rfl⟩
  · exact ⟨by rw [isStatusRead_read, decide_eq_false ha], by simp⟩
  · exact ⟨rfl, by simp⟩

/-- With latency left a hard reset abandons the transfer that is held before it. -/
theorem IsHeld.nextMove_of_hardReset {s : State} {e : HostEvent} {rest : List HostEvent} (he : IsHeld e)
    (hb : s.busy = true) (hl : s.lat ≠ 0) (hh : s.host = e :: .hardReset :: rest) :
    s.nextMove = .host .hardReset rest := by
  obtain ⟨hs, hreset⟩ := he.not_statusRead
  simp [State.nextMove, hh, hb, hl, hs, hreset]

/-- Settles O39: in each of the three cases the step is the hard reset. -/
theorem hardResetAbandons : Obligations.HardResetAbandons := by
  intro s rest hb hl hcase
  have hmove : s.nextMove = .host .hardReset rest := by
    rcases hcase with hh | ⟨a, ha, hh⟩ | ⟨a, w, hh⟩
    · exact nextMove_of_hardReset hb hl hh
    · exact (IsHeld.read ha).nextMove_of_hardReset hb hl hh
    · exact (IsHeld.write a w).nextMove_of_hardReset hb hl hh
  exact ⟨_, step_of_host hmove, rfl, rfl, rfl, rfl, rfl, hardReset_qt_get s, rfl, rfl, rfl⟩

end Sys2Proof.Machine
end

section
/-! PROOF. The assembler (R51, R55 to R57): command lines, the pseudo-commands, the load directives. -/

namespace Sys2Proof.Machine

/-! ### Command lines (R51, R55) -/

theorem asmInstr_eq_none_iff (c : AsmCommand) : asmInstr c = none ↔ c.wf = false := by
  obtain ⟨m, d | d, s | s⟩ := c
  all_goals cases m <;> simp [asmInstr, AsmCommand.wf, BufName.isF]

/-- Settles O40: a line assembles to the write of the command it names. -/
theorem commandLines : Obligations.CommandLines := by
  refine ⟨fun c => ?_, fun d s => ⟨rfl, rfl, rfl, rfl, rfl, rfl⟩⟩
  rw [← asmInstr_eq_none_iff, assemble, Option.map_eq_none_iff]

/-! ### A faulted engine drops the commands written to it (R56, R106) -/

theorem run_dropped_commands {s : State} (hf : s.fault = true) (hb : s.busy = false) {l : List Instr}
    (hh : s.host = l.map commandWrite) :
    Host.Core.run Sys2Proof.core l.length s = .next { s with host := [] } := by
  induction l generalizing s with
  | nil =>
    rw [List.map_nil] at hh
    rw [← hh]
    rfl
  | cons i l ih =>
    have hstep : step s = .next { s with host := l.map commandWrite } := by
      rw [step_write_of_idle hb hh, hostWrite_cmd_of_fault s _ hf]
    rw [List.length_cons, run_succ_of_step hstep]
    exact ih hf hb rfl

/-- Settles O41: the two expansions are evaluated, and each write of the sequence is dropped. -/
theorem pseudoCommands : Obligations.PseudoCommands :=
  ⟨rfl, rfl, fun _ _ _ hf hb hh => run_dropped_commands hf hb hh⟩

/-! ### The load directives (R57) -/

/-- The state with another list of what the host has yet to do. -/
def State.withHost (s : State) (h : List HostEvent) : State := { s with host := h }

/-- A write does not look at what the host does next. -/
theorem hostWrite_withHost (s : State) (h : List HostEvent) (a : WordAddr) (w : Word) :
    (s.withHost h).hostWrite a w = (s.hostWrite a w).withHost h := by
  unfold State.hostWrite
  cases locate a with
  | cmd => cases hf : s.fault <;> simp [State.withHost, State.writeCmd, State.accept, hf]
  | ctrl =>
    unfold State.writeCtrl
    cases w.getLsbD 0 <;> cases w.getLsbD 1 <;> rfl
  | status | qt | zz | f | q | reserved => rfl

theorem step_write_withHost {s : State} (hb : s.busy = false) (a : WordAddr) (w : Word)
    (rest : List HostEvent) :
    step (s.withHost (.write a w :: rest)) = .next ((s.hostWrite a w).withHost rest) := by
  have hstep : step (s.withHost (.write a w :: rest)) =
      .next (((s.withHost (.write a w :: rest)).hostWrite a w).withHost rest) := step_write_of_idle hb rfl
  rw [hstep, hostWrite_withHost]
  rfl

/-- Writes in a row to an idle engine, over a family `put` of states in which each of them is an update `upd`
of the content. -/
theorem run_writes {α ι : Type} {put : α → State} {addr : ι → WordAddr} {word : ι → Word} {upd : α → ι → α}
    (hbusy : ∀ x, (put x).busy = false)
    (hwrite : ∀ x i, (put x).hostWrite (addr i) (word i) = put (upd x i)) (l : List ι) (x : α)
    (rest : List HostEvent) :
    Host.Core.run Sys2Proof.core l.length
      ((put x).withHost ((l.map fun i => .write (addr i) (word i)) ++ rest)) =
        .next ((put (l.foldl upd x)).withHost rest) := by
  induction l generalizing x with
  | nil => rfl
  | cons i l ih =>
    have hstep := step_write_withHost (hbusy x) (addr i) (word i)
      ((l.map fun i => .write (addr i) (word i)) ++ rest)
    rw [hwrite] at hstep
    exact (run_succ_of_step hstep l.length).trans (ih (upd x i))

/-- Updates in a row, each of which puts the elements of `b` of one key in place and leaves the others, make
the block `b` once every key has come. -/
theorem foldl_update_eq {α ι : Type} {upd : Block α → ι → Block α} {b : Block α} {key : Elem → ι}
    (hput : ∀ B i, (upd B (key i))[i] = b[i]) (hkeep : ∀ B k (i : Elem), key i ≠ k → (upd B k)[i] = B[i])
    {l : List ι} (hl : ∀ k, k ∈ l) (B : Block α) : l.foldl upd B = b := by
  have hget : ∀ (i : Elem) (l : List ι) (B : Block α), key i ∈ l ∨ B[i] = b[i] →
      (l.foldl upd B)[i] = b[i] := by
    intro i l
    induction l with
    | nil => simp
    | cons k l ih =>
      intro B h
      by_cases hk : key i = k
      · exact ih _ (.inr (hk ▸ hput B i))
      · exact ih _ (by simpa [hk, hkeep B k i hk] using h)
  exact Vector.ext fun i hi => hget ⟨i, hi⟩ l B (.inl (hl _))

/-- One element for each transfer, as `LDQT` and `LDF` load them. -/
theorem foldl_set_eq {α : Type} (b B : Block α) :
    (List.finRange 64).foldl (fun B (i : Elem) => B.set i b[i]) B = b :=
  foldl_update_eq (key := id) (fun _ i => Vector.getElem_set_self i.isLt)
    (fun _ _ _ hk => Vector.getElem_set_ne _ _ fun h => hk (Fin.ext h.symm)) List.mem_finRange B

/-- The word of a Q buffer that holds an element (R36). -/
def qWordOf (i : Elem) : Fin 16 := ⟨i.val / 4, by omega⟩

theorem qElem_qWordOf (i : Elem) : qElem (qWordOf i) ⟨i.val % 4, by omega⟩ = i :=
  Fin.ext (Nat.div_add_mod i.val 4)

theorem unpackQ_packQ_get (B b : QBlock) (i : Elem) :
    (unpackQ B (qWordOf i) (packQ b (qWordOf i)))[i] = b[i] := by
  have h := (unpackQ_get B (qWordOf i) (packQ b (qWordOf i)) ⟨i.val % 4, by omega⟩).trans
    (packQ_extract b (qWordOf i) _)
  simpa only [qElem_qWordOf] using h

/-- Four elements for each transfer, as `LDQ` loads them. -/
theorem foldl_unpackQ_eq (b B : QBlock) :
    (List.finRange 16).foldl (fun B k => unpackQ B k (packQ b k)) B = b :=
  foldl_update_eq (key := qWordOf) (fun B i => unpackQ_packQ_get B b i)
    (fun B k i hk => unpackQ_get_of_ne B k _ i fun h => hk (Fin.ext h)) List.mem_finRange B

/-- An address of the window as the number the assembler computes (R32). -/
theorem toNat_windowAddr {n : Nat} (h : n < 2 ^ 10) : (BitVec.ofNat 10 n).toNat = n := by
  rw [BitVec.toNat_ofNat, Nat.mod_eq_of_lt h]

theorem hostWrite_qt_put (s : State) (i : Elem) (T : QTable) (w : Word) :
    State.hostWrite { s with qt := T } (BitVec.ofNat 10 (0x040 + i.val)) w =
      { s with qt := T.set i (w.extractLsb' 0 16) } :=
  hostWrite_qt _ _ w i (locate_qt _ i (toNat_windowAddr (by omega)))

theorem hostWrite_f_put (s : State) (n : BufIdx) (i : Elem) (B : FBlock) (w : Word) :
    (s.writeF n B).hostWrite (BitVec.ofNat 10 (0x100 + 64 * n.val + i.val)) w = s.writeF n (B.set i w) := by
  rw [hostWrite_f _ _ w n i (locate_f _ n i (toNat_windowAddr (by omega))), readF_writeF_same]
  simp [State.writeF]

theorem hostWrite_q_put (s : State) (n : BufIdx) (k : Fin 16) (B : QBlock) (w : Word) :
    (s.writeQ n B).hostWrite (BitVec.ofNat 10 (0x200 + 16 * n.val + k.val)) w =
      s.writeQ n (unpackQ B k w) := by
  rw [hostWrite_q _ _ w n k (locate_q _ n k (toNat_windowAddr (by omega))), readQ_writeQ_same]
  simp [State.writeQ]

theorem State.writeF_readF (s : State) (n : BufIdx) : s.writeF n (s.readF n) = s := by
  simp [State.writeF, State.readF]

theorem State.writeQ_readQ (s : State) (n : BufIdx) : s.writeQ n (s.readQ n) = s := by
  simp [State.writeQ, State.readQ]

section load
variable {s : State} (hb : s.busy = false) (rest : List HostEvent)
include hb

theorem run_ldqt (v : Block Word) : Host.Core.run Sys2Proof.core 64 (s.withHost
    (((List.finRange 64).map fun i : Elem => .write (BitVec.ofNat 10 (0x040 + i.val)) v[i]) ++ rest)) =
      .next { s with qt := v.map (BitVec.extractLsb' 0 16), host := rest } := by
  have hrun := run_writes (put := fun T => { s with qt := T }) (word := fun i : Elem => v[i])
    (upd := fun T i => T.set i (v.map (BitVec.extractLsb' 0 16))[i]) (fun _ => hb)
    (fun T i => (hostWrite_qt_put s i T v[i]).trans (by simp)) (List.finRange 64) s.qt rest
  rwa [foldl_set_eq] at hrun

theorem run_ldf (n : BufIdx) (x : FBlock) : Host.Core.run Sys2Proof.core 64 (s.withHost
    (((List.finRange 64).map fun i : Elem =>
      .write (BitVec.ofNat 10 (0x100 + 64 * n.val + i.val)) x[i]) ++ rest)) =
        .next { s with fbuf := s.fbuf.set n x, host := rest } := by
  have hrun := run_writes (put := s.writeF n) (word := fun i : Elem => x[i]) (fun _ => hb)
    (fun B i => hostWrite_f_put s n i B x[i]) (List.finRange 64) (s.readF n) rest
  rwa [foldl_set_eq, State.writeF_readF] at hrun

theorem run_ldq (n : BufIdx) (b : QBlock) : Host.Core.run Sys2Proof.core 16 (s.withHost
    (((List.finRange 16).map fun k : Fin 16 =>
      .write (BitVec.ofNat 10 (0x200 + 16 * n.val + k.val)) (packQ b k)) ++ rest)) =
        .next { s with qbuf := s.qbuf.set n b, host := rest } := by
  have hrun := run_writes (put := s.writeQ n) (word := packQ b) (fun _ => hb)
    (fun B k => hostWrite_q_put s n k B (packQ b k)) (List.finRange 16) (s.readQ n) rest
  rwa [foldl_unpackQ_eq, State.writeQ_readQ] at hrun

end load

theorem State.eq_withHost {s : State} {h : List HostEvent} (hh : s.host = h) : s = s.withHost h := by
  rw [← hh]; rfl

/-- Settles O42: the transfers of a directive in a row, each of which puts its elements in place. -/
theorem loadDirectives : Obligations.LoadDirectives := by
  intro s rest hb
  refine ⟨fun v => ⟨_, rfl, by simp, fun hh => ⟨v.map (BitVec.extractLsb' 0 16), by simp, ?_⟩⟩,
    fun n x => ⟨_, rfl, by simp, fun hh => ?_⟩, fun n b => ⟨_, rfl, by simp, fun hh => ?_⟩⟩
  · exact (congrArg _ (State.eq_withHost hh)).trans (run_ldqt hb rest v)
  · exact (congrArg _ (State.eq_withHost hh)).trans (run_ldf hb rest n x)
  · exact (congrArg _ (State.eq_withHost hh)).trans (run_ldq hb rest n b)

end Sys2Proof.Machine
end

section
/-! PROOF. What each command leaves when its check passes (R58, R62, R65, R71, R75, R83, R84). -/

namespace Sys2Proof.Machine

/-- Settles O12: a block that passes the check gives the datapath's result. -/
theorem transformsComplete : Obligations.TransformsComplete := by
  intro d n s hb hok
  have hcheck : checkTransform (s.readF n) = none := checkTransform_passes hok
  exact ⟨exec_result (.fdct d n) s hb hcheck, exec_result (.idct d n) s hb hcheck⟩

theorem quantClamps_eq_decide (S : FBlock) (T : QTable)
    [Decidable (∃ i : Elem, quant (fval S[i]) T[i] ≠ quotient (fval S[i]) T[i])] :
    quantClamps S T = decide (∃ i : Elem, quant (fval S[i]) T[i] ≠ quotient (fval S[i]) T[i]) := by
  rw [Bool.eq_iff_iff, decide_eq_true_iff, quantClamps_iff]
  exact exists_congr fun i => (clamp8_ne_self_iff _).symm

/-- Settles O15: the result of a QUANT whose check passes, its `QSAT` read off the elements. -/
theorem quantCompletes : Obligations.QuantCompletes := by
  intro d n s hb hfin hqt
  have hcheck : commandCheck (.quant d n) s = none := (checkQuant_none_iff _ _).mpr ⟨hfin, hqt⟩
  rw [exec_result _ s hb hcheck, commandResult, quantClamps_eq_decide]
  rfl

theorem dequantBlock_get (B : QBlock) (T : QTable) (i : Elem) :
    (dequantBlock B T)[i] = fencInt (dequant (sint8 B[i]) T[i]) := by
  simp [dequantBlock]

/-- Settles O16: the result of a DEQUANT whose check passes, and the value of its patterns. -/
theorem dequantCompletes : Obligations.DequantCompletes := by
  intro d n s hb hqt
  have hcheck : commandCheck (.dequant d n) s = none := (checkDequant_none_iff _).mpr hqt
  refine ⟨dequantBlock (s.readQ n) s.qt, fun i => ⟨dequantBlock_get _ _ i, ?_⟩, exec_result _ s hb hcheck⟩
  obtain ⟨hfin, hval⟩ := dequantBlock_value (s.readQ n) s.qt i
  exact ⟨hfin, hval.trans (dequant_cast _ _)⟩

/-- Settles O17: the reorders check nothing, and their blocks obey the scatter and the gather law. -/
theorem reordersComplete : Obligations.ReordersComplete := fun d n s hb hz =>
  ⟨⟨scatter s.zz (s.readQ n), scatter_get s.zz _ hz, exec_result (.zzf d n) s hb rfl⟩,
    ⟨gather s.zz (s.readQ n), gather_get s.zz _, exec_result (.zzi d n) s hb rfl⟩⟩

/-- R86's table undoes R82's. -/
theorem defaultZigzag_inverse : ∀ k : Elem, defaultZigzag[defaultZigzagInverse[k]] = k := by decide +kernel

theorem scatter_default_get (b : QBlock) (k : Elem) :
    (scatter defaultZigzag b)[k] = b[defaultZigzagInverse[k]] := by
  have h := scatter_get defaultZigzag b zigzagBijective_default defaultZigzagInverse[k]
  simpa only [defaultZigzag_inverse] using h

/-- Settles O22: the scatter law at the index the inverse table gives. -/
theorem defaultZigzagTable : Obligations.DefaultZigzagTable := by
  refine ⟨zigzagBijective_default, defaultZigzag_inverse, fun d n s hb hz => ?_⟩
  obtain ⟨t, ht, -, hT⟩ := zzf_reorders d n s hb
  refine ⟨t, ht, fun k => ?_⟩
  have hk := scatter_default_get (s.readQ n) k
  rw [← hz, ← hT] at hk
  exact hk

end Sys2Proof.Machine
end

section
/-! PROOF. Read after write at the host port (R33, R35, R36, R40): the same address, and every other. -/

namespace Sys2Proof.Machine

/-! ### The regions of the window and their addresses (R32) -/

theorem exists_locate_qt {a : WordAddr} (h : 0x040 ≤ a.toNat ∧ a.toNat ≤ 0x07F) : ∃ i, locate a = .qt i :=
  ⟨⟨a.toNat - 0x040, by omega⟩, locate_qt a _ (by simp only; omega)⟩

theorem exists_locate_f {a : WordAddr} (h : 0x100 ≤ a.toNat ∧ a.toNat ≤ 0x17F) :
    ∃ n i, locate a = .f n i :=
  ⟨⟨(a.toNat - 0x100) / 64, by omega⟩, ⟨(a.toNat - 0x100) % 64, by omega⟩,
    locate_f a _ _ (by simp only; omega)⟩

theorem exists_locate_q {a : WordAddr} (h : 0x200 ≤ a.toNat ∧ a.toNat ≤ 0x21F) :
    ∃ n k, locate a = .q n k :=
  ⟨⟨(a.toNat - 0x200) / 16, by omega⟩, ⟨(a.toNat - 0x200) % 16, by omega⟩,
    locate_q a _ _ (by simp only; omega)⟩

theorem toNat_of_locate_qt {a : WordAddr} {i : Elem} (h : locate a = .qt i) : a.toNat = 0x040 + i.val := by
  unfold locate at h
  simp only at h
  split_ifs at h
  cases h
  simp only [Fin.val_ofNat]
  omega

/-! ### The address written -/

/-- A word is its four bytes. -/
theorem append_bytes_eq (w : Word) :
    w.extractLsb' 24 8 ++ w.extractLsb' 16 8 ++ w.extractLsb' 8 8 ++ w.extractLsb' 0 8 = w := by
  rw [BitVec.extractLsb'_append_extractLsb'_eq_extractLsb' (show 24 = 16 + 8 from rfl),
    BitVec.extractLsb'_append_extractLsb'_eq_extractLsb' (show 16 = 8 + 8 from rfl),
    BitVec.extractLsb'_append_extractLsb'_eq_extractLsb' (show 8 = 0 + 8 from rfl)]
  exact BitVec.extractLsb'_eq_self

theorem packQ_unpackQ (B : QBlock) (k : Fin 16) (w : Word) : packQ (unpackQ B k w) k = w := by
  rw [packQ, unpackQ_get, unpackQ_get, unpackQ_get, unpackQ_get]
  exact append_bytes_eq w

theorem setWidth_extractLsb'_low (w : Word) : (w.extractLsb' 0 16).setWidth 32 = w &&& 0xFFFF := by
  apply BitVec.eq_of_toNat_eq
  rw [BitVec.toNat_setWidth, BitVec.extractLsb'_toNat, BitVec.toNat_and, Nat.shiftRight_zero]
  exact (Nat.mod_eq_of_lt (by omega)).trans (Nat.and_two_pow_sub_one_eq_mod w.toNat 16).symm

section same
variable (s : State) {a : WordAddr} (w : Word)

theorem hostRead_hostWrite_qt {i : Elem} (h : locate a = .qt i) :
    (s.hostWrite a w).hostRead a = w &&& 0xFFFF := by
  rw [hostWrite_qt s a w i h, hostRead_qt _ a i h, ← setWidth_extractLsb'_low]
  simp

theorem hostRead_hostWrite_f {n : BufIdx} {i : Elem} (h : locate a = .f n i) :
    (s.hostWrite a w).hostRead a = w := by
  rw [hostWrite_f s a w n i h, hostRead_f _ a n i h, readF_writeF_same]
  simp

theorem hostRead_hostWrite_q {n : BufIdx} {k : Fin 16} (h : locate a = .q n k) :
    (s.hostWrite a w).hostRead a = w := by
  rw [hostWrite_q s a w n k h, hostRead_q _ a n k h, readQ_writeQ_same, packQ_unpackQ]

end same

/-! ### Every other address -/

theorem packQ_unpackQ_ne (B : QBlock) {k l : Fin 16} (w : Word) (h : l ≠ k) :
    packQ (unpackQ B k w) l = packQ B l := by
  have hne : ∀ j : Fin 4, (qElem l j).val / 4 ≠ k.val := fun j hj =>
    h (Fin.ext (by rw [← hj, qElem_val]; omega))
  simp only [packQ, unpackQ_get_of_ne B k w _ (hne _)]

section other
variable (s : State) {a b : WordAddr} (w : Word) (hne : b ≠ a)
include hne

theorem hostRead_hostWrite_qt_ne {i : Elem} (h : locate a = .qt i) :
    (s.hostWrite a w).hostRead b = s.hostRead b := by
  rw [hostWrite_qt s a w i h]
  unfold State.hostRead
  cases hb : locate b with
  | qt j =>
    have hij : i.val ≠ j.val := fun e => hne (BitVec.eq_of_toNat_eq (by
      rw [toNat_of_locate_qt h, toNat_of_locate_qt hb, e]))
    simp [hij]
  | cmd | status | ctrl | zz | f | q | reserved => rfl

theorem hostRead_hostWrite_f_ne {n : BufIdx} {i : Elem} (h : locate a = .f n i) :
    (s.hostWrite a w).hostRead b = s.hostRead b := by
  rw [hostWrite_f s a w n i h]
  cases hb : locate b with
  | f m j =>
    rw [hostRead_f _ b m j hb, hostRead_f _ b m j hb]
    by_cases hm : m = n
    · subst hm
      have hij : i.val ≠ j.val := fun e => hne (BitVec.eq_of_toNat_eq (by
        rw [toNat_of_locate_f h, toNat_of_locate_f hb, e]))
      rw [readF_writeF_same]
      exact Vector.getElem_set_ne _ _ hij
    · rw [readF_writeF_ne s n m _ hm]
  | cmd | status | ctrl | qt | zz | q | reserved => simp only [State.hostRead, hb] <;> rfl

theorem hostRead_hostWrite_q_ne {n : BufIdx} {k : Fin 16} (h : locate a = .q n k) :
    (s.hostWrite a w).hostRead b = s.hostRead b := by
  rw [hostWrite_q s a w n k h]
  cases hb : locate b with
  | q m l =>
    rw [hostRead_q _ b m l hb, hostRead_q _ b m l hb]
    by_cases hm : m = n
    · subst hm
      have hkl : l ≠ k := fun e => hne (BitVec.eq_of_toNat_eq (by
        rw [toNat_of_locate_q h, toNat_of_locate_q hb, e]))
      rw [readQ_writeQ_same, packQ_unpackQ_ne _ w hkl]
    · rw [readQ_writeQ_ne s n m _ hm]
  | cmd | status | ctrl | qt | zz | f | reserved => simp only [State.hostRead, hb] <;> rfl

/-- A write to any location but `CMD` and `CTRL` is seen at its own address only. -/
theorem hostRead_hostWrite_ne (hcmd : a ≠ 0x000) (hctrl : a ≠ 0x002) :
    (s.hostWrite a w).hostRead b = s.hostRead b := by
  cases ha : locate a with
  | cmd => exact absurd ((locate_eq_cmd_iff a).mp ha) hcmd
  | ctrl => exact absurd ((locate_eq_ctrl_iff a).mp ha) hctrl
  | status => rw [hostWrite_ignored s a w (.inr (.inl ha))]
  | zz i => rw [hostWrite_ignored s a w (.inr (.inr ⟨i, ha⟩))]
  | reserved => rw [hostWrite_ignored s a w (.inl ha)]
  | qt i => exact hostRead_hostWrite_qt_ne s w hne ha
  | f n i => exact hostRead_hostWrite_f_ne s w hne ha
  | q n k => exact hostRead_hostWrite_q_ne s w hne ha

end other

/-- Settles O31: the three regions at the address written, and every other address. -/
theorem writeReadBack : Obligations.WriteReadBack := by
  refine fun s a b w => ⟨fun ha => ?_, fun ha => ?_, fun hne hcmd hctrl => ?_⟩
  · obtain ⟨i, hi⟩ := exists_locate_qt ha
    exact hostRead_hostWrite_qt s w hi
  · rcases ha with ha | ha
    · obtain ⟨n, i, hi⟩ := exists_locate_f ha
      exact hostRead_hostWrite_f s w hi
    · obtain ⟨n, k, hk⟩ := exists_locate_q ha
      exact hostRead_hostWrite_q s w hk
  · exact hostRead_hostWrite_ne s w hne (fun h => hcmd (by rw [h]; rfl)) fun h => hctrl (by rw [h]; rfl)

end Sys2Proof.Machine
end

section
/-! PROOF. The basis matrix in closed form (R68). -/

namespace Sys2Proof.Laws

open Sys2Proof.Machine

/-- A cosine by its sign and its index from 0 to 8. -/
noncomputable def signedCos (p : Bool × ℕ) : ℝ := if p.1 then -cosN p.2 else cosN p.2

/-- A row of the basis from the signs and indices its angles reduce to. -/
theorem basis_eq_signedCos {k : Fin 8} (hk : k ≠ 0) (m : Fin 8) :
    basis k m = signedCos (reduceCos ((2 * m.val + 1) * k.val)) / 2 := by
  rw [basis_pos k m hk, cosN_reduce, signedCos]

theorem basis_row {k : Fin 8} (hk : k ≠ 0) {row : Fin 8 → ℝ}
    (h : ∀ m : Fin 8, signedCos (reduceCos ((2 * m.val + 1) * k.val)) = row m) (m : Fin 8) :
    basis k m = row m / 2 := by
  rw [basis_eq_signedCos hk, h]

end Sys2Proof.Laws

namespace Sys2Proof.Machine

open Laws in
/-- Settles O46: the seven cosines, and the eight rows of the table by reduction of their angles. -/
theorem basisClosedForms : Obligations.BasisClosedForms := by
  refine ⟨cosN, fun _ => rfl, cosN_1, cosN_2, cosN_3, cosN_4, cosN_5, cosN_6, cosN_7, basis_zero, fun m =>
    ⟨basis_row (by decide) (fun m => ?_) m, basis_row (by decide) (fun m => ?_) m,
      basis_row (by decide) (fun m => ?_) m, basis_row (by decide) (fun m => ?_) m,
      basis_row (by decide) (fun m => ?_) m, basis_row (by decide) (fun m => ?_) m,
      basis_row (by decide) (fun m => ?_) m⟩⟩
  all_goals fin_cases m <;> rfl

end Sys2Proof.Machine
end

section
/-! PROOF. The exact transforms as products of 8 × 8 matrices (R61, R63): with `C` the basis matrix, FDCT is
`C X Cᵀ` and IDCT is `Cᵀ D C`. Since `C` is orthogonal, R66 follows by matrix algebra. -/

namespace Sys2Proof.Machine

open Laws Matrix

/-! ### Blocks as matrices (R4) -/

@[simp] theorem rowOf_blockIdx (a b : Fin 8) : rowOf (blockIdx a b) = a := by
  apply Fin.ext
  simp only [rowOf, blockIdx]
  omega

@[simp] theorem colOf_blockIdx (a b : Fin 8) : colOf (blockIdx a b) = b := by
  apply Fin.ext
  simp only [colOf, blockIdx]
  omega

@[simp] theorem blockIdx_rowOf_colOf (i : Elem) : blockIdx (rowOf i) (colOf i) = i :=
  Fin.ext (Nat.div_add_mod i.val 8)

/-- The positions of a block are its linear indices. -/
def blockEquiv : Fin 8 × Fin 8 ≃ Elem where
  toFun p := blockIdx p.1 p.2
  invFun i := (rowOf i, colOf i)
  left_inv p := by simp
  right_inv i := by simp

theorem sum_blockIdx (f : Elem → ℝ) : ∑ m : Fin 8, ∑ n : Fin 8, f (blockIdx m n) = ∑ i, f i := by
  rw [← blockEquiv.sum_comp f, Fintype.sum_prod_type]
  rfl

/-- A block as a matrix. -/
def toMatrix (X : Elem → ℝ) : Matrix (Fin 8) (Fin 8) ℝ := of fun a b => X (blockIdx a b)

theorem toMatrix_rowOf_colOf (X : Elem → ℝ) (i : Elem) : toMatrix X (rowOf i) (colOf i) = X i := by
  simp [toMatrix]

theorem toMatrix_injective : Function.Injective toMatrix := fun X Y h => funext fun i => by
  rw [← toMatrix_rowOf_colOf X, h, toMatrix_rowOf_colOf]

/-- The block with its two indices exchanged. -/
theorem toMatrix_transpose (X : Elem → ℝ) :
    toMatrix (fun j => X (blockIdx (colOf j) (rowOf j))) = (toMatrix X)ᵀ := by
  ext a b
  simp [toMatrix]

/-! ### The transforms as products -/

/-- `C` (R60). -/
noncomputable def basisMatrix : Matrix (Fin 8) (Fin 8) ℝ := of basis

theorem basisMatrix_mul_transpose : basisMatrix * basisMatrixᵀ = 1 := by
  ext k l
  rw [mul_apply, one_apply]
  split_ifs with h
  · rw [h]; exact sum_basis_mul_self l
  · exact sum_basis_mul_of_ne h

theorem transpose_mul_basisMatrix : basisMatrixᵀ * basisMatrix = 1 :=
  mul_eq_one_comm.mp basisMatrix_mul_transpose

/-- A separable sum is an entry of a product of three matrices. -/
theorem sepSum_eq_mul_apply (A B : Matrix (Fin 8) (Fin 8) ℝ) (X : Elem → ℝ) (k l : Fin 8) :
    sepSum (A k) (fun n => B n l) X = (A * toMatrix X * B) k l := by
  simp only [sepSum, mul_apply, Finset.sum_mul]
  rw [Finset.sum_comm]
  refine Finset.sum_congr rfl fun n _ => Finset.sum_congr rfl fun m _ => ?_
  rw [toMatrix, of_apply]
  ring

theorem fdctExact_apply (X : Elem → ℝ) (i : Elem) :
    fdctExact X i = (basisMatrix * toMatrix X * basisMatrixᵀ) (rowOf i) (colOf i) := by
  rw [fdctExact_eq_sepSum, ← sepSum_eq_mul_apply]
  rfl

theorem idctExact_apply (D : Elem → ℝ) (i : Elem) :
    idctExact D i = (basisMatrixᵀ * toMatrix D * basisMatrix) (rowOf i) (colOf i) := by
  rw [idctExact_eq_sepSum, ← sepSum_eq_mul_apply]
  rfl

theorem toMatrix_fdctExact (X : Elem → ℝ) :
    toMatrix (fdctExact X) = basisMatrix * toMatrix X * basisMatrixᵀ := by
  ext a b
  rw [toMatrix, of_apply, fdctExact_apply, rowOf_blockIdx, colOf_blockIdx]

theorem toMatrix_idctExact (D : Elem → ℝ) :
    toMatrix (idctExact D) = basisMatrixᵀ * toMatrix D * basisMatrix := by
  ext a b
  rw [toMatrix, of_apply, idctExact_apply, rowOf_blockIdx, colOf_blockIdx]

/-! ### Inverse (R66 item 1) -/

/-- Settles O47: the matrix of a transform that follows the other is `X` between two unit matrices. -/
theorem exactTransformsInverse : Obligations.ExactTransformsInverse := by
  refine ⟨fun X => toMatrix_injective ?_, fun D => toMatrix_injective ?_⟩
  · calc toMatrix (idctExact (fdctExact X))
        = (basisMatrixᵀ * basisMatrix) * toMatrix X * (basisMatrixᵀ * basisMatrix) := by
          rw [toMatrix_idctExact, toMatrix_fdctExact]; simp only [Matrix.mul_assoc]
      _ = toMatrix X := by rw [transpose_mul_basisMatrix, Matrix.one_mul, Matrix.mul_one]
  · calc toMatrix (fdctExact (idctExact D))
        = (basisMatrix * basisMatrixᵀ) * toMatrix D * (basisMatrix * basisMatrixᵀ) := by
          rw [toMatrix_fdctExact, toMatrix_idctExact]; simp only [Matrix.mul_assoc]
      _ = toMatrix D := by rw [basisMatrix_mul_transpose, Matrix.one_mul, Matrix.mul_one]

/-! ### The first row and linearity (R66 items 2, 5, 7) -/

theorem basis_zero_mul_basis_zero (m n : Fin 8) : basis 0 m * basis 0 n = 1 / 8 := by
  rw [basis_zero, basis_zero, ← alpha_zero, alpha_zero_mul_self]

theorem fdctExact_zero (X : Elem → ℝ) : fdctExact X 0 = 1 / 8 * ∑ i, X i := by
  rw [fdctExact_eq_sepSum, ← sum_blockIdx, Finset.mul_sum]
  refine Finset.sum_congr rfl fun m _ => ?_
  rw [Finset.mul_sum]
  exact Finset.sum_congr rfl fun n _ => congrArg (· * _) (basis_zero_mul_basis_zero m n)

/-- A separable sum over the linear indices. -/
theorem sepSum_eq_sum (a b : Fin 8 → ℝ) (X : Elem → ℝ) :
    sepSum a b X = ∑ i, a (rowOf i) * b (colOf i) * X i := by
  rw [← sum_blockIdx]
  simp only [sepSum, rowOf_blockIdx, colOf_blockIdx]

theorem idctExact_of_dc {D : Elem → ℝ} (h : ∀ j, j ≠ 0 → D j = 0) (i : Elem) : idctExact D i = D 0 / 8 := by
  rw [idctExact_eq_sepSum, sepSum_eq_sum, Fintype.sum_eq_single 0 fun j hj => by rw [h j hj, mul_zero]]
  have hzero : basis (rowOf 0) (rowOf i) * basis (colOf 0) (colOf i) = 1 / 8 :=
    basis_zero_mul_basis_zero _ _
  rw [hzero]
  ring

theorem sepSum_linear (a b : Fin 8 → ℝ) (X Y : Elem → ℝ) (x y : ℝ) :
    sepSum a b (fun j => x * X j + y * Y j) = x * sepSum a b X + y * sepSum a b Y := by
  simp only [sepSum_eq_sum, Finset.mul_sum, ← Finset.sum_add_distrib]
  exact Finset.sum_congr rfl fun i _ => by ring

theorem fdctExact_linear (X Y : Elem → ℝ) (a b : ℝ) (i : Elem) :
    fdctExact (fun j => a * X j + b * Y j) i = a * fdctExact X i + b * fdctExact Y i := by
  simp only [fdctExact_eq_sepSum, sepSum_linear]

theorem idctExact_linear (X Y : Elem → ℝ) (a b : ℝ) (i : Elem) :
    idctExact (fun j => a * X j + b * Y j) i = a * idctExact X i + b * idctExact Y i := by
  simp only [idctExact_eq_sepSum, sepSum_linear]

/-- The transpose of a conjugation is the conjugation of the transpose. -/
theorem transpose_conj (A X : Matrix (Fin 8) (Fin 8) ℝ) : (A * X * Aᵀ)ᵀ = A * Xᵀ * Aᵀ := by
  rw [transpose_mul, transpose_mul, transpose_transpose, Matrix.mul_assoc]

theorem fdctExact_transpose (X : Elem → ℝ) (i : Elem) :
    fdctExact (fun j => X (blockIdx (colOf j) (rowOf j))) i = fdctExact X (blockIdx (colOf i) (rowOf i)) := by
  rw [fdctExact_apply, fdctExact_apply, toMatrix_transpose, ← transpose_conj, transpose_apply,
    rowOf_blockIdx, colOf_blockIdx]

theorem idctExact_transpose (D : Elem → ℝ) (i : Elem) :
    idctExact (fun j => D (blockIdx (colOf j) (rowOf j))) i = idctExact D (blockIdx (colOf i) (rowOf i)) := by
  have hconj := transpose_conj basisMatrixᵀ (toMatrix D)
  rw [transpose_transpose] at hconj
  rw [idctExact_apply, idctExact_apply, toMatrix_transpose, ← hconj, transpose_apply,
    rowOf_blockIdx, colOf_blockIdx]

/-- Settles O48: the constant row of the basis, linear sums, and transposed products. -/
theorem dcTermLinearSymmetric : Obligations.DcTermLinearSymmetric :=
  ⟨fdctExact_zero, fun _ i h => idctExact_of_dc h i,
    fun X Y a b i => ⟨fdctExact_linear X Y a b i, idctExact_linear X Y a b i⟩,
    fun X i => ⟨fdctExact_transpose X i, idctExact_transpose X i⟩⟩

/-! ### Energy and gain (R66 items 3, 4) -/

/-- The energy of a block is a trace. -/
theorem sum_sq_eq_trace (X : Elem → ℝ) : ∑ i, X i ^ 2 = (toMatrix X * (toMatrix X)ᵀ).trace := by
  rw [← sum_blockIdx fun i => X i ^ 2]
  simp only [trace, diag_apply, mul_apply, transpose_apply, toMatrix, of_apply, pow_two]

theorem fdctExact_energy (X : Elem → ℝ) : ∑ i, fdctExact X i ^ 2 = ∑ i, X i ^ 2 := by
  have hmul : toMatrix (fdctExact X) * (toMatrix (fdctExact X))ᵀ =
      basisMatrix * (toMatrix X * (basisMatrixᵀ * basisMatrix) * (toMatrix X)ᵀ * basisMatrixᵀ) := by
    simp only [toMatrix_fdctExact, transpose_mul, transpose_transpose, Matrix.mul_assoc]
  rw [sum_sq_eq_trace, hmul, trace_mul_comm, Matrix.mul_assoc, transpose_mul_basisMatrix,
    Matrix.mul_one, Matrix.mul_one, ← sum_sq_eq_trace]

theorem abs_fdctExact_le {X : Elem → ℝ} {M : ℝ} (h : ∀ i, |X i| ≤ M) (i : Elem) :
    |fdctExact X i| ≤ 8 * M := by
  rw [fdctExact_eq_sepSum]
  exact sepSum_gain _ _ _ _ (basis_row_abs_sum _) (basis_row_abs_sum _) h

theorem abs_idctExact_le {D : Elem → ℝ} {M : ℝ} (h : ∀ i, |D i| ≤ M) (i : Elem) :
    |idctExact D i| ≤ 8 * M := by
  rw [idctExact_eq_sepSum]
  exact sepSum_gain _ _ _ _ (basis_col_abs_sum _) (basis_col_abs_sum _) h

/-- Every row but the first is orthogonal to the first, which is constant. -/
theorem sum_basis_of_ne_zero {k : Fin 8} (h : k ≠ 0) : ∑ m, basis k m = 0 := by
  have horth := sum_basis_mul_of_ne h
  simp only [basis_zero, ← alpha_zero, ← Finset.sum_mul] at horth
  refine (mul_eq_zero.mp horth).resolve_right fun hz => ?_
  have := alpha_zero_mul_self
  simp [hz] at this

theorem fdctExact_const_zero (v : ℝ) : fdctExact (fun _ => v) 0 = 8 * v := by
  rw [fdctExact_zero]
  simp
  ring

theorem fdctExact_const_of_ne {i : Elem} (h : i ≠ 0) (v : ℝ) : fdctExact (fun _ => v) i = 0 := by
  have hprod : fdctExact (fun _ => v) i = (∑ m, basis (rowOf i) m) * (∑ n, basis (colOf i) n) * v := by
    rw [fdctExact_eq_sepSum, sepSum, Finset.sum_mul_sum]
    simp only [Finset.sum_mul]
  rw [hprod]
  by_cases hr : rowOf i = 0
  · have hc : colOf i ≠ 0 := fun hc => h (by rw [← blockIdx_rowOf_colOf i, hr, hc]; rfl)
    rw [sum_basis_of_ne_zero hc, mul_zero, zero_mul]
  · rw [sum_basis_of_ne_zero hr, zero_mul, zero_mul]

/-- Settles O49: the trace under an orthogonal conjugation, the sums of magnitudes of the basis, and its row
sums. -/
theorem energyAndGain : Obligations.EnergyAndGain :=
  ⟨fdctExact_energy, fun _ _ h i => ⟨abs_fdctExact_le h i, abs_idctExact_le h i⟩,
    fun v => ⟨fdctExact_const_zero v, fun _ h => fdctExact_const_of_ne h v⟩⟩

end Sys2Proof.Machine
end

section
/-! PROOF. The hardware round trip (R66 item 6) and the example of the uniform block (95 section 1.1): the
accuracy contract (R64) on top of the exact transforms. -/

namespace Sys2Proof.Machine

/-! ### The tolerance (R64) -/

theorem tol_mono {M N : ℚ} (h : M ≤ N) : tol M ≤ tol N :=
  max_le_max le_rfl (div_le_div_of_nonneg_right h (by norm_num))

/-- Up to `2^20/1000` the first term of the maximum is the larger one. -/
theorem tol_eq_thousandth {M : ℚ} (h : M ≤ 2 ^ 20 / 1000) : tol M = 1 / 1000 :=
  max_eq_left ((div_le_iff₀ (by norm_num)).mpr (by linarith))

/-- The contract for any bound `M` of the magnitudes. -/
theorem Accurate.of_le {exact : (Elem → ℝ) → Elem → ℝ} {impl : FBlock → FBlock} (h : Accurate exact impl)
    {S : FBlock} {M : ℚ} (hS : ∀ j : Elem, finite S[j] = true ∧ |fval S[j]| ≤ M) (hM : M ≤ 2 ^ 24) (i : Elem) :
    finite (impl S)[i] = true ∧
      |(fval (impl S)[i] : ℝ) - exact (fun j => (fval S[j] : ℝ)) i| ≤ (tol M : ℝ) := by
  have hrange : inRange S = true := (inRange_iff S).mpr fun j => ⟨(hS j).1, (hS j).2.trans hM⟩
  have hmax : blockMax S ≤ M :=
    (blockMax_le_iff S M).mpr ⟨(abs_nonneg _).trans (hS 0).2, fun j => (hS j).2⟩
  obtain ⟨hfin, herr⟩ := h S hrange i
  exact ⟨hfin, herr.trans (by exact_mod_cast tol_mono hmax)⟩

/-! ### The round trip (R66 item 6) -/

section roundTrip
variable {S : FBlock} {M : ℚ} (hS : ∀ j : Elem, finite S[j] = true ∧ |fval S[j]| ≤ M) (hM : M ≤ 2 ^ 24)
include hS hM

/-- The result of an FDCT is finite, and at most the gain and the tolerance above the source. -/
theorem fdctImpl_bound (i : Elem) :
    finite (Config.fdctImpl S)[i] = true ∧ |fval (Config.fdctImpl S)[i]| ≤ 8 * M + tol M := by
  obtain ⟨hfin, herr⟩ := Config.fdctImpl_accurate.of_le hS hM i
  have hexact : |fdctExact (fun j => (fval S[j] : ℝ)) i| ≤ 8 * (M : ℝ) :=
    abs_fdctExact_le (fun j => by exact_mod_cast (hS j).2) i
  have hreal : |(fval (Config.fdctImpl S)[i] : ℝ)| ≤ 8 * (M : ℝ) + (tol M : ℝ) := by
    rw [abs_le] at herr hexact ⊢
    constructor <;> linarith
  exact ⟨hfin, by exact_mod_cast hreal⟩

/-- The error of the first transform passes the second with its gain, and the second adds its own. -/
theorem roundTrip_error (hM' : 8 * M + tol M ≤ 2 ^ 24) (j : Elem) :
    |fval (Config.idctImpl (Config.fdctImpl S))[j] - fval S[j]| ≤ 8 * tol M + tol (8 * M + tol M) := by
  have hsecond := (Config.idctImpl_accurate.of_le (fdctImpl_bound hS hM) hM' j).2
  have hfirst : |idctExact (fun i => (fval (Config.fdctImpl S)[i] : ℝ)) j - (fval S[j] : ℝ)| ≤
      8 * (tol M : ℝ) := by
    have hdiff := idctExact_linear (fun i => (fval (Config.fdctImpl S)[i] : ℝ))
      (fdctExact fun i => (fval S[i] : ℝ)) 1 (-1) j
    rw [exactTransformsInverse.1] at hdiff
    have hgain := abs_idctExact_le (D := fun i => 1 * (fval (Config.fdctImpl S)[i] : ℝ) +
      -1 * fdctExact (fun i => (fval S[i] : ℝ)) i) (M := (tol M : ℝ))
      (fun i => by simpa [sub_eq_add_neg] using (Config.fdctImpl_accurate.of_le hS hM i).2) j
    rw [hdiff] at hgain
    simpa [sub_eq_add_neg] using hgain
  have hreal : |(fval (Config.idctImpl (Config.fdctImpl S))[j] : ℝ) - (fval S[j] : ℝ)| ≤
      8 * (tol M : ℝ) + (tol (8 * M + tol M) : ℝ) := by
    rw [add_comm]
    exact (abs_sub_le _ _ _).trans (add_le_add hsecond hfirst)
  exact_mod_cast hreal

end roundTrip

theorem roundTrip_tolerance {M : ℚ} (h : M ≤ 128) : 8 * tol M + tol (8 * M + tol M) ≤ 9 / 1000 := by
  have htol : tol M = 1 / 1000 := tol_eq_thousandth (by linarith)
  rw [htol, tol_eq_thousandth (by linarith)]
  norm_num

/-- Settles O50: FDCT's result passes the check of IDCT, whose error is that of the round trip. -/
theorem hardwareRoundTrip : Obligations.HardwareRoundTrip := by
  intro d e n m s u M hs hu hS hM hM'
  have hcheck : checkTransform (s.readF n) = none :=
    checkTransform_passes fun j => ⟨(hS j).1, (hS j).2.trans hM⟩
  refine ⟨_, exec_result (.fdct d n) s hs hcheck, fun hsame => ?_⟩
  have hT : u.readF m = Config.fdctImpl (s.readF n) := hsame.trans (commandResult_fdct_readF d n s)
  have hcheck' : checkTransform (u.readF m) = none := by
    rw [hT]
    exact checkTransform_passes fun j =>
      ⟨(fdctImpl_bound hS hM j).1, (fdctImpl_bound hS hM j).2.trans hM'⟩
  refine ⟨_, exec_result (.idct e m) u hu hcheck', rfl, fun j => ?_⟩
  have hv : (commandResult (.idct e m) u).readF e = Config.idctImpl (Config.fdctImpl (s.readF n)) := by
    rw [commandResult_idct_readF, hT]
  have herr : |fval ((commandResult (.idct e m) u).readF e)[j] - fval (s.readF n)[j]| ≤
      8 * tol M + tol (8 * M + tol M) := by
    rw [hv]
    exact roundTrip_error hS hM hM' j
  exact ⟨herr, fun h => herr.trans (roundTrip_tolerance h)⟩

/-! ### The uniform block (95 section 1.1) -/

/-- FDCT of a constant block: the DC term, and nothing elsewhere. -/
theorem fdctImpl_const {S : FBlock} {v : ℚ} (hS : ∀ j : Elem, finite S[j] = true ∧ fval S[j] = v)
    (hv : |v| ≤ 1024) : |fval (Config.fdctImpl S)[(0 : Elem)] - 8 * v| ≤ 1 / 1000 ∧
      ∀ i : Elem, i ≠ 0 → |fval (Config.fdctImpl S)[i]| ≤ 1 / 1000 := by
  have herr : ∀ i : Elem, |(fval (Config.fdctImpl S)[i] : ℝ) - fdctExact (fun _ => (v : ℝ)) i| ≤
      ((1 / 1000 : ℚ) : ℝ) := fun i => by
    have h := (Config.fdctImpl_accurate.of_le (M := |v|) (fun j => ⟨(hS j).1, by rw [(hS j).2]⟩)
      (by linarith) i).2
    simpa only [(hS _).2, tol_of_le _ hv] using h
  refine ⟨?_, fun i hi => ?_⟩
  · have h := herr 0
    rw [fdctExact_const_zero] at h
    exact_mod_cast h
  · have h := herr i
    rw [fdctExact_const_of_ne hi, sub_zero] at h
    exact_mod_cast h

/-- IDCT of a block with a DC term only: an eighth of it everywhere. -/
theorem idctImpl_of_dc {S : FBlock} {v : ℚ} (hfin : ∀ j : Elem, finite S[j] = true)
    (hdc : fval S[(0 : Elem)] = v) (hac : ∀ j : Elem, j ≠ 0 → fval S[j] = 0) (hv : |v| ≤ 1024) (i : Elem) :
    |fval (Config.idctImpl S)[i] - v / 8| ≤ 1 / 1000 := by
  have hle : ∀ j : Elem, |fval S[j]| ≤ |v| := fun j => by
    by_cases hj : j = 0
    · rw [hj, hdc]
    · rw [hac j hj, abs_zero]; exact abs_nonneg v
  have h := (Config.idctImpl_accurate.of_le (fun j => ⟨hfin j, hle j⟩) (by linarith) i).2
  rw [idctExact_of_dc (fun j hj => by rw [hac j hj, Rat.cast_zero]), hdc, tol_of_le _ hv] at h
  exact_mod_cast h

/-- Rounding finds the integer less than one half away. -/
theorem rha_eq_of_near {x : ℚ} {n : ℤ} (h : |x - n| < 1 / 2) : rha x = n := by
  have hdist : |((rha x - n : ℤ) : ℚ)| < 1 := by
    have herr := (rha_error x).1
    rw [abs_le] at herr
    rw [abs_lt] at h ⊢
    push_cast
    constructor <;> linarith
  exact sub_eq_zero.mp (Int.abs_lt_one_iff.mp (by exact_mod_cast hdist))

theorem quotient_sixteen {c : ℚ} {n : ℤ} (h : |c - 16 * n| ≤ 1 / 1000) : quotient c 16 = n := by
  refine rha_eq_of_near ?_
  rw [abs_le] at h
  rw [abs_lt, show ((16 : Divisor).toNat : ℚ) = 16 from rfl]
  constructor <;> linarith

section uniform
variable {T : QTable} (hT : ∀ i : Elem, T[i] = 16)
include hT

/-- QUANT of the example's coefficients: 36 in the DC term, 0 elsewhere, and nothing clamped. -/
theorem uniform_quantBlock {S : FBlock} (hdc : |fval S[(0 : Elem)] - 576| ≤ 1 / 1000)
    (hac : ∀ i : Elem, i ≠ 0 → |fval S[i]| ≤ 1 / 1000) :
    (quantBlock S T)[(0 : Elem)] = 0x24 ∧ (∀ i : Elem, i ≠ 0 → (quantBlock S T)[i] = 0x00) ∧
      quantClamps S T = false := by
  have hzero : quotient (fval S[(0 : Elem)]) T[(0 : Elem)] = 36 := by
    rw [hT]
    exact quotient_sixteen (by norm_num at hdc ⊢; exact hdc)
  have hne : ∀ i : Elem, i ≠ 0 → quotient (fval S[i]) T[i] = 0 := fun i hi => by
    rw [hT]
    exact quotient_sixteen (by simpa using hac i hi)
  refine ⟨?_, fun i hi => ?_, ?_⟩
  · rw [quantBlock_get, quant, hzero]
    rfl
  · rw [quantBlock_get, quant, hne i hi]
    rfl
  · rw [← Bool.not_eq_true, quantClamps_iff]
    rintro ⟨i, hi⟩
    by_cases h0 : i = 0
    · subst h0; omega
    · have := hne i h0
      omega

/-- DEQUANT of the example's bytes: the pattern of 576 and the pattern of 0. -/
theorem uniform_dequantBlock {B : QBlock} (hdc : B[(0 : Elem)] = 0x24)
    (hac : ∀ i : Elem, i ≠ 0 → B[i] = 0x00) :
    (dequantBlock B T)[(0 : Elem)] = 0x44100000 ∧
      ∀ i : Elem, i ≠ 0 → (dequantBlock B T)[i] = 0x00000000 := by
  have hget : ∀ i : Elem, (dequantBlock B T)[i] = fencInt (dequant (sint8 B[i]) 16) := fun i => by
    rw [dequantBlock_get, hT]
  refine ⟨?_, fun i hi => ?_⟩
  · rw [hget, hdc]
    decide
  · rw [hget, hac i hi]
    decide

end uniform

theorem commandResult_dequant_readF (d n : BufIdx) (s : State) :
    (commandResult (.dequant d n) s).readF d = dequantBlock (s.readQ n) s.qt :=
  readF_writeF_same s d _

/-- The coding half of the example: FDCT and QUANT. -/
theorem uniform_encode {s : State} (hb : s.busy = true) (hF : ∀ i : Elem, (s.readF 0)[i] = 0x42900000)
    (hqt : ∀ i : Elem, s.qt[i] = 16) :
    ∃ t u, exec (.fdct 1 0) s = .next t ∧ exec (.quant 0 1) { t with busy := true } = .next u ∧
      (|fval (t.readF 1)[(0 : Elem)] - 576| ≤ 1 / 1000 ∧
        ∀ i : Elem, i ≠ 0 → |fval (t.readF 1)[i]| ≤ 1 / 1000) ∧
      ((u.readQ 0)[(0 : Elem)] = 0x24 ∧ ∀ i : Elem, i ≠ 0 → (u.readQ 0)[i] = 0x00) ∧
      u.qt = s.qt ∧ u.fault = s.fault ∧ u.qsat = s.qsat := by
  have hS : ∀ j : Elem, finite (s.readF 0)[j] = true ∧ fval (s.readF 0)[j] = 72 := fun j => by
    rw [hF j]
    exact ⟨by decide, by decide +kernel⟩
  have hle : ∀ j : Elem, finite (s.readF 0)[j] = true ∧ |fval (s.readF 0)[j]| ≤ 72 := fun j =>
    ⟨(hS j).1, by rw [(hS j).2]; norm_num⟩
  have hfdct := exec_result (.fdct 1 0) s hb
    (checkTransform_passes fun j => ⟨(hle j).1, (hle j).2.trans (by norm_num)⟩)
  obtain ⟨t, ht⟩ : ∃ t, t = commandResult (.fdct 1 0) s := ⟨_, rfl⟩
  have htF : t.readF 1 = Config.fdctImpl (s.readF 0) := by rw [ht, commandResult_fdct_readF]
  have htqt : t.qt = s.qt := by rw [ht]; rfl
  have hcoeff : |fval (t.readF 1)[(0 : Elem)] - 576| ≤ 1 / 1000 ∧
      ∀ i : Elem, i ≠ 0 → |fval (t.readF 1)[i]| ≤ 1 / 1000 := by
    rw [htF, show (576 : ℚ) = 8 * 72 by norm_num]
    exact fdctImpl_const hS (by norm_num)
  obtain ⟨hdc, hac, hclamps⟩ := uniform_quantBlock (htqt ▸ hqt) hcoeff.1 hcoeff.2
  have hcheck : checkQuant (t.readF 1) t.qt = none := (checkQuant_none_iff _ _).mpr
    ⟨fun i => by rw [htF]; exact (fdctImpl_bound hle (by norm_num) i).1,
      fun i => by rw [htqt, hqt]; decide⟩
  have hquant := exec_result (.quant 0 1) { t with busy := true } rfl hcheck
  refine ⟨t, _, by rw [hfdct, ht], hquant, hcoeff, ?_, htqt, by rw [ht]; rfl, ?_⟩
  · rw [commandResult_quant_readQ]
    exact ⟨hdc, hac⟩
  · calc (t.qsat || quantClamps (t.readF 1) t.qt)
        = t.qsat := by rw [hclamps, Bool.or_false]
      _ = s.qsat := by rw [ht]; rfl

/-- The decoding half of the example: DEQUANT and IDCT. -/
theorem uniform_decode {u : State} (hqt : ∀ i : Elem, u.qt[i] = 16) (hdc : (u.readQ 0)[(0 : Elem)] = 0x24)
    (hac : ∀ i : Elem, i ≠ 0 → (u.readQ 0)[i] = 0x00) :
    ∃ v w, exec (.dequant 0 0) { u with busy := true } = .next v ∧
      exec (.idct 1 0) { v with busy := true } = .next w ∧
      ((v.readF 0)[(0 : Elem)] = 0x44100000 ∧ ∀ i : Elem, i ≠ 0 → (v.readF 0)[i] = 0x00000000) ∧
      (∀ i : Elem, |fval (w.readF 1)[i] - 72| ≤ 1 / 1000) ∧ w.fault = u.fault ∧ w.qsat = u.qsat := by
  have hcheck : checkDequant u.qt = none := (checkDequant_none_iff _).mpr fun i => by rw [hqt]; decide
  have hdequant := exec_result (.dequant 0 0) { u with busy := true } rfl hcheck
  obtain ⟨v, hv⟩ : ∃ v, v = commandResult (.dequant 0 0) { u with busy := true } := ⟨_, rfl⟩
  have hvF : v.readF 0 = dequantBlock (u.readQ 0) u.qt := by rw [hv, commandResult_dequant_readF]; rfl
  have hpatterns : (v.readF 0)[(0 : Elem)] = 0x44100000 ∧
      ∀ i : Elem, i ≠ 0 → (v.readF 0)[i] = 0x00000000 := by
    rw [hvF]
    exact uniform_dequantBlock hqt hdc hac
  have hok : ∀ j : Elem, finite (v.readF 0)[j] = true ∧ |fval (v.readF 0)[j]| ≤ 2 ^ 24 := fun j => by
    rw [hvF]
    exact ⟨(dequantBlock_value _ _ j).1, abs_fval_dequantBlock_le _ _ j⟩
  have hidct := exec_result (.idct 1 0) { v with busy := true } rfl (checkTransform_passes hok)
  refine ⟨v, _, by rw [hdequant, hv], hidct, hpatterns, fun i => ?_, by rw [hv]; rfl, by rw [hv]; rfl⟩
  rw [commandResult_idct_readF, show (72 : ℚ) = 576 / 8 by norm_num]
  exact idctImpl_of_dc (fun j => (hok j).1) (by rw [hpatterns.1]; decide +kernel)
    (fun j hj => by rw [hpatterns.2 j hj]; exact fval_zero) (by norm_num) i

/-- Settles O51: the two halves, the second from the bytes the first one leaves. -/
theorem uniformBlockExample : Obligations.UniformBlockExample := by
  intro s hb hf hq hF hqt
  obtain ⟨t, u, ht, hu, hcoeff, hbytes, huqt, huf, huq⟩ := uniform_encode hb hF hqt
  obtain ⟨v, w, hv, hw, hpatterns, hsamples, hwf, hwq⟩ := uniform_decode (huqt ▸ hqt) hbytes.1 hbytes.2
  exact ⟨t, u, v, w, ht, hu, hv, hw, hcoeff, hbytes, hpatterns, hsamples, by rw [hwf, huf, hf],
    by rw [hwq, huq, hq]⟩

end Sys2Proof.Machine
end
